-- ==== Sys2Proof/Word.lean ====
section
/-! DEFINITION. The word of the Intcode core: 64 bits, two's complement (rules R8, R11). Every rule of the
spec is stated on integers; a word is read as an integer by `BitVec.toInt`. -/

namespace Sys2Proof

/-- One word: a memory cell, `pc`, `rb`, an I/O word (`XLEN` = 64, rule R8). -/
abbrev Word := BitVec 64

/-- `WMIN`, the least word value (rule R8). -/
def wmin : Int := -9223372036854775808

/-- `WMAX`, the greatest word value (rule R8). -/
def wmax : Int := 9223372036854775807

/-- `wrap64(z)`: the unique word congruent to `z` modulo 2^64 (rule R11). -/
def wrap64 (z : Int) : Word := BitVec.ofInt 64 z

end Sys2Proof
end

