-- ==== Sys2Proof/Syntax.lean ====
section
/-! DEFINITION. The instructions of the core: one constructor per row of spec/opcode_table.json (rules R2,
R93), each carrying the addressing mode of every operand slot its opcode uses, slot 0 first (rules R81, R85).
The parameters are not part of an instruction: they are cells of memory, read during the step (rules R112,
R116). -/

namespace Sys2Proof

/-- The three addressing modes: digits 0, 1 and 2 (rules R83, R89, R90, R91). -/
inductive Mode where
  | position
  | immediate
  | relative
  deriving DecidableEq, Repr

/-- The ten instructions (rule R93); `a` and `b` are read slots, `dest` is the write slot (rule R85). -/
inductive Instr where
  | add (a b dest : Mode)
  | mul (a b dest : Mode)
  | inp (dest : Mode)
  | out (a : Mode)
  | jnz (a b : Mode)
  | jz (a b : Mode)
  | lt (a b dest : Mode)
  | eq (a b dest : Mode)
  | arb (a : Mode)
  | hlt
  deriving DecidableEq, Repr

end Sys2Proof
end

