-- ==== Sys2Proof/WellFormed.lean ====
section
/-! DEFINITION. The one check the syntax leaves open: a write slot admits modes 0 and 2 only (rule R88). -/

namespace Sys2Proof

/-- A mode a W slot admits: every mode but immediate, which is "not settable" (rules R88, R90). -/
def Mode.settable : Mode → Bool
  | .position => true
  | .immediate => false
  | .relative => true

/-- An instruction is well formed when its W slot, if it has one, has a settable mode (rule R88). -/
def Instr.wellFormed : Instr → Bool
  | .add _ _ dest => dest.settable
  | .mul _ _ dest => dest.settable
  | .inp dest => dest.settable
  | .out _ => true
  | .jnz _ _ => true
  | .jz _ _ => true
  | .lt _ _ dest => dest.settable
  | .eq _ _ dest => dest.settable
  | .arb _ => true
  | .hlt => true

end Sys2Proof
end

