-- ==== Sys2Proof/Decode.lean ====
section
/-! DEFINITION. The decimal encoding of instructions (30_encoding.md): the decoder, total on every word and
rejecting by name, and after it the encoder of canonical words. -/

namespace Sys2Proof

/-- `digit(w, k)`: the decimal digit of weight `10^k` (rule R12). -/
def digit (n k : Nat) : Nat := n / 10 ^ k % 10

/-- `trem(w, n)`: the remainder of division rounded toward zero, with the sign of `w` (rule R12). -/
def trem (w n : Int) : Int := w.tmod n

/-- Why a word is no legal instruction word, with the information the fault carries (rules R94 to R98). -/
inductive DecodeError where
  /-- A negative word or an undefined opcode; carries the opcode (rules R94, R95). -/
  | unknownOperation (op : Word)
  /-- More than five digits, or a reserved mode digit in a used slot; carries the word (rules R96, R97). -/
  | reservedEncoding (w : Word)
  /-- Mode digit 1 in the W slot; carries the word (rule R98). -/
  | unsupportedWrite (w : Word)
  deriving DecidableEq, Repr

/-- The meaning of a mode digit; 3 to 9 are reserved (rules R83, R97). -/
def modeOfDigit (d : Nat) : Option Mode :=
  if d = 0 then some .position else if d = 1 then some .immediate else if d = 2 then some .relative else none

/-- The five formats, each with the constructor it builds (rule R85). -/
inductive Format where
  | rrw (mk : Mode → Mode → Mode → Instr)
  | rr (mk : Mode → Mode → Instr)
  | w (mk : Mode → Instr)
  | r (mk : Mode → Instr)
  | n (instr : Instr)

/-- The opcode map (rules R82, R85, R93): the format of each of the ten defined opcodes. -/
def formatOf (op : Nat) : Option Format :=
  if op = 1 then some (.rrw .add)
  else if op = 2 then some (.rrw .mul)
  else if op = 3 then some (.w .inp)
  else if op = 4 then some (.r .out)
  else if op = 5 then some (.rr .jnz)
  else if op = 6 then some (.rr .jz)
  else if op = 7 then some (.rrw .lt)
  else if op = 8 then some (.rrw .eq)
  else if op = 9 then some (.r .arb)
  else if op = 99 then some (.n .hlt)
  else none

/-- The modes of the used slots, read from digits 2, 3 and 4 (rule R81); a digit of an unused slot is not
examined (rule R99), a reserved digit in a used slot is rejected before an immediate destination is
(rule R198, lines f and g of rule R113). `n` is the word `w` read as a non-negative integer. -/
def decodeModes (w : Word) (n : Nat) : Format → Except DecodeError Instr
  | .rrw mk =>
    match modeOfDigit (digit n 2), modeOfDigit (digit n 3), modeOfDigit (digit n 4) with
    | some a, some b, some dest => if dest.settable then .ok (mk a b dest) else .error (.unsupportedWrite w)
    | _, _, _ => .error (.reservedEncoding w)
  | .rr mk =>
    match modeOfDigit (digit n 2), modeOfDigit (digit n 3) with
    | some a, some b => .ok (mk a b)
    | _, _ => .error (.reservedEncoding w)
  | .w mk =>
    match modeOfDigit (digit n 2) with
    | some dest => if dest.settable then .ok (mk dest) else .error (.unsupportedWrite w)
    | none => .error (.reservedEncoding w)
  | .r mk =>
    match modeOfDigit (digit n 2) with
    | some a => .ok (mk a)
    | none => .error (.reservedEncoding w)
  | .n instr => .ok instr

/-- `Decode(w)`, a function of the word alone (rule R113), in the order of its lines a to h. -/
def decode (w : Word) : Except DecodeError Instr :=
  if w.toInt < 0 then .error (.unknownOperation (wrap64 (trem w.toInt 100)))
  else
    match formatOf (w.toNat % 100) with
    | none => .error (.unknownOperation (wrap64 (w.toNat % 100 : Nat)))
    | some f => if w.toNat > 99999 then .error (.reservedEncoding w) else decodeModes w w.toNat f

/-- The opcode of an instruction (rules R82, R93). -/
def Instr.opcode : Instr → Nat
  | .add _ _ _ => 1
  | .mul _ _ _ => 2
  | .inp _ => 3
  | .out _ => 4
  | .jnz _ _ => 5
  | .jz _ _ => 6
  | .lt _ _ _ => 7
  | .eq _ _ _ => 8
  | .arb _ => 9
  | .hlt => 99

/-- The modes of the used slots in slot order (rules R81, R85). -/
def Instr.modes : Instr → List Mode
  | .add a b dest => [a, b, dest]
  | .mul a b dest => [a, b, dest]
  | .inp dest => [dest]
  | .out a => [a]
  | .jnz a b => [a, b]
  | .jz a b => [a, b]
  | .lt a b dest => [a, b, dest]
  | .eq a b dest => [a, b, dest]
  | .arb a => [a]
  | .hlt => []

/-- The number of operands (rule R85). -/
def Instr.arity (i : Instr) : Nat := i.modes.length

/-- The length in cells, `1 + arity` (rule R86). -/
def Instr.length (i : Instr) : Nat := 1 + i.arity

/-- The digit of a mode (rule R83). -/
def Mode.toDigit : Mode → Nat
  | .position => 0
  | .immediate => 1
  | .relative => 2

/-- The sum over the slots from `k` on of `m_k * 10^(k+2)` (rule R106). -/
def modesValue : List Mode → Nat → Nat
  | [], _ => 0
  | m :: ms, k => m.toDigit * 10 ^ (k + 2) + modesValue ms (k + 1)

/-- The canonical instruction word as an integer (rule R106). -/
def encodeNat (i : Instr) : Nat := i.opcode + modesValue i.modes 0

/-- The encoder: the canonical instruction word, with 0 in every don't-care digit (rules R99, R106). -/
def encode (i : Instr) : Word := wrap64 (encodeNat i)

/-- What the decoder reads from an instruction whose cells, laid out one after another with the first in the
low 64 bits, are the number `w` (the bits above `nbits` are 0). The instruction word is the first cell, and it
alone decides (rule R113). -/
def decodeTableWord (_nbits w : Nat) : Option Instr :=
  match decode (BitVec.ofNat 64 w) with
  | .ok i => some i
  | .error _ => none

end Sys2Proof
end

