-- ==== Sys2Proof/Config.lean ====
section
/-! DEFINITION. The fixed parameters of the core (rule R8) and the type of its one open parameter
`ADDR_MAX` (rule R9). No behaviour of this hardware is left as a free value (93_implementation_defined.md
part 1: "this hardware draws nothing"), so there is no opaque constant here. -/

namespace Sys2Proof.Config

/-- `HALT_PC`: the value of `pc` that means Halted (rules R8, R21). -/
def haltPc : Word := wrap64 (-1)

/-- `ENTRY`: the value of `pc` after a reset with a non-empty image (rules R8, R56, R231). -/
def entry : Word := 0#64

/-- The legal values of `ADDR_MAX`: `0 <= ADDR_MAX <= WMAX` (rule R9). -/
abbrev AddrMax := Fin (2 ^ 63)

/-- The default, and greatest permitted, value of `ADDR_MAX`: `WMAX` (rule R9). -/
def defaultAddrMax : AddrMax := 9223372036854775807

end Sys2Proof.Config
end

