-- ==== Sys2Proof/Machine/State.lean ====
section
/-! DEFINITION. The state of one core with its channels (rules R30, R37), as plain data, the reasons a step
could stop (there are none, rules R111 and R191), and the state after reset. -/

namespace Sys2Proof.Machine

/-- The values of `FCAUSE` (rules R26, R190). -/
inductive FaultCause where
  | none
  | unknownOperation
  | unsupportedWrite
  | reservedEncoding
  | invalidAddress
  deriving DecidableEq, Repr

/-- The argument of `raise X(info)` (rule R14): the cause and the word that `FVAL` receives. -/
structure Raise where
  cause : FaultCause
  info : Word
  deriving DecidableEq, Repr

/-- One cell of memory: its address and the word it holds (rules R32, R50). The unit is the cell of 64 bits;
it has no bytes (rule R50). -/
abbrev Cell := Nat × Word

/-- Memory as the list of its non-zero cells, addresses strictly rising; an unlisted address reads as 0
(rules R32, R33, R35). -/
abbrev Memory := List Cell

/-- The architectural state (rule R37). -/
structure State where
  /-- `pc`, the instruction pointer (rule R21). -/
  pc : Word
  /-- `rb`, the relative base (rule R25). -/
  rb : Word
  /-- `M`, the memory array (rule R32). -/
  mem : Memory
  /-- `MLEN`, the memory extent (rule R34). -/
  mlen : Nat
  /-- `FCAUSE`, the fault cause (rule R26). -/
  fcause : FaultCause
  /-- `FVAL`, the fault value (rule R27). -/
  fval : Word
  /-- `FPC`, the fault pointer (rule R28). -/
  fpc : Word
  /-- `INQ`, the input words supplied and not yet taken, head first (rules R37, R40). -/
  inq : List Word
  /-- `OUTQ`, the words output since reset, oldest first (rules R37, R41). -/
  outq : List Word
  /-- `ADDR_MAX`, the open parameter of the machine (rule R9): fixed for a machine, no step or host
  transaction changes it. It stands in the state so that a statement about every state holds for every value
  of the parameter. -/
  addrMax : Config.AddrMax
  deriving DecidableEq, Repr

/-- The reasons a step stops the model: none. A fault of this core is an architectural event, taken as a next
state with the fault record written (rule R191). -/
inductive Fault where
  deriving DecidableEq, Repr

/-- The reasons the model gives an instruction no meaning. -/
inductive Refusal where
  /-- Raised by no arm: every instruction has its meaning. A refusal is safe. -/
  | notModelled (mnemonic : String)
  deriving DecidableEq, Repr

/-- What a meaning answers. -/
abbrev Result := Host.Outcome State Fault Refusal

/-- The state after `RESET` of the empty image with an empty input queue (rules R231 to R236): `pc` is −1, the
core is Halted, no cell is allocated. `ADDR_MAX` has its default value (rule R9). -/
def State.reset : State where
  pc := Config.haltPc
  rb := 0#64
  mem := []
  mlen := 0
  fcause := .none
  fval := 0#64
  fpc := 0#64
  inq := []
  outq := []
  addrMax := Config.defaultAddrMax

end Sys2Proof.Machine
end

