-- ==== Sys2Proof/Machine/Ops.lean ====
section
/-! DEFINITION. The shared operations over memory, registers, channels and the fault record: memory access
(20_memory.md), taking a fault (rule R191), the instruction-pointer update (rule R150), the channel primitives
(rules R160, R161) and reset (rules R230 to R236). There is no return from a fault: no instruction and no step
leaves the Faulted state, only `State.load` does (rules R193, R199). -/

namespace Sys2Proof.Machine

/-! ### Memory -/

/-- The word in the cell at address `a`; 0 where nothing is listed (rules R32, R33). -/
def Memory.read : Memory → Nat → Word
  | [], _ => 0#64
  | (b, u) :: m, a => if a = b then u else Memory.read m a

/-- `M` with `v` in the cell at address `a`, every other cell as before. The canonical form is kept: writing 0
removes the entry. -/
def Memory.write : Memory → Nat → Word → Memory
  | [], a, v => if v = 0#64 then [] else [(a, v)]
  | (b, u) :: m, a, v =>
    if a < b then (if v = 0#64 then (b, u) :: m else (a, v) :: (b, u) :: m)
    else if a = b then (if v = 0#64 then m else (a, v) :: m)
    else (b, u) :: Memory.write m a v

/-- The canonical form: addresses strictly rising, and no entry equal to what an unlisted address reads as. -/
abbrev Memory.wf (m : Memory) : Prop := m.Pairwise (fun x y => x.1 < y.1) ∧ ∀ c ∈ m, c.2 ≠ 0#64

/-- `M` with the words `ws` in the cells from address `a` on. -/
def Memory.writeAll : Memory → Nat → List Word → Memory
  | m, _, [] => m
  | m, a, v :: vs => Memory.writeAll (Memory.write m a v) (a + 1) vs

/-- The integer is the address of a cell: `0 .. ADDR_MAX` (rules R9, R55, R67). -/
abbrev State.validAddr (s : State) (addr : Int) : Prop := 0 ≤ addr ∧ addr ≤ ((s.addrMax : Nat) : Int)

/-- `MemRead(addr, 1)` on behalf of slot `k` (rule R58): it changes nothing, and an address outside
`0 .. ADDR_MAX` raises InvalidAddress(k). -/
def State.memRead (s : State) (k : Fin 3) (addr : Int) : Except Raise Word :=
  if s.validAddr addr then .ok (s.mem.read addr.toNat)
  else .error ⟨.invalidAddress, wrap64 ((k : Nat) : Int)⟩

/-- `MemWrite(a, 1, v)` at an address already checked (rule R59): it stores the word and extends `MLEN` over
the cell, also when the word is 0. -/
def State.memWrite (s : State) (a : Nat) (v : Word) : State :=
  { s with mem := s.mem.write a v, mlen := if s.mlen ≤ a then a + 1 else s.mlen }

/-! ### Fetch and the instruction pointer -/

/-- The instruction word, the cell at `pc` (rule R112). The step fetches only when `0 <= pc < MLEN`, so no
range check is needed. -/
def State.instrWord (s : State) : Word := s.mem.read s.pc.toInt.toNat

/-- `CommitPc(npc)` (rule R150): the only writer of `pc` besides reset. An `npc` outside `[0, MLEN)`, with
`MLEN` as it is after the step's effect, halts the core. -/
def State.commitPc (s : State) (npc : Int) : State :=
  if 0 ≤ npc ∧ npc < (s.mlen : Int) then { s with pc := wrap64 npc } else { s with pc := Config.haltPc }

/-- The last lines of a retiring step: the effect is in `s`, the pointer is updated (rule R111 line 10). -/
def retire (s : State) (npc : Int) : Result := .next (s.commitPc npc)

/-! ### Taking a fault -/

/-- Fault entry, `raise X(info)` (rules R14, R191): the fault record is written and nothing else changes;
`pc` keeps addressing the faulting instruction, no handler is entered. -/
def State.raise (s : State) (r : Raise) : State :=
  { s with fcause := r.cause, fval := r.info, fpc := s.pc }

/-- Continue with a resolved value, or take the fault its resolution raised (rules R111, R123). -/
def resolved {α : Type} (s : State) (x : Except Raise α) (k : α → Result) : Result :=
  match x with
  | .ok v => k v
  | .error r => .next (s.raise r)

/-- The cause and information of a decode fault (rules R94 to R98, R190). -/
def raiseOfDecode : DecodeError → Raise
  | .unknownOperation op => ⟨.unknownOperation, op⟩
  | .reservedEncoding w => ⟨.reservedEncoding, w⟩
  | .unsupportedWrite w => ⟨.unsupportedWrite, w⟩

/-- The numeric code of a cause (rules R26, R190); codes 5 to 7 are never written. -/
def faultCode : FaultCause → BitVec 3
  | .none => 0
  | .unknownOperation => 1
  | .unsupportedWrite => 2
  | .reservedEncoding => 3
  | .invalidAddress => 4

/-! ### Channels -/

/-- `InAvail()` (rule R160). -/
def State.inAvail (s : State) : Bool := !s.inq.isEmpty

/-- `InTake()` (rule R160): the head of `INQ` and the state without it; none when `INQ` is empty. -/
def State.inTake (s : State) : Option (Word × State) :=
  match s.inq with
  | [] => none
  | x :: rest => some (x, { s with inq := rest })

/-- `OutPut(v)` (rule R161): it appends `v` to `OUTQ` and always succeeds. -/
def State.outPut (s : State) (v : Word) : State := { s with outq := s.outq ++ [v] }

/-! ### The relative base -/

/-- `rb <- v`, written by ARB only (rules R25, R181). -/
def State.setRb (s : State) (v : Word) : State := { s with rb := v }

/-! ### Run state and reset -/

/-- The run state (rule R36), a function of the state, never stored. -/
inductive RunState where
  | running
  | halted
  | faulted
  deriving DecidableEq, Repr

/-- The core has a recorded fault (rule R36). -/
abbrev State.isFaulted (s : State) : Prop := s.fcause ≠ .none

/-- `0 <= pc < MLEN` (rules R22, R36). -/
abbrev State.pcInRange (s : State) : Prop := 0 ≤ s.pc.toInt ∧ s.pc.toInt < (s.mlen : Int)

/-- `RunState` (rule R36). A `pc` outside `[0, MLEN)`, which only −1 can be between steps (rule R22), is
Halted (rule R111 lines 2 and 3). -/
def State.runState (s : State) : RunState :=
  if s.isFaulted then .faulted else if s.pcInRange then .running else .halted

/-- The architectural part of `RESET(IMAGE)` (rules R230 to R236): every register and the memory take their
reset values, `OUTQ` is emptied, `INQ` and `ADDR_MAX` stay. -/
def State.load (s : State) (image : List Word) : State where
  pc := if image.length = 0 then Config.haltPc else Config.entry
  rb := 0#64
  mem := Memory.writeAll [] 0 image
  mlen := image.length
  fcause := .none
  fval := 0#64
  fpc := 0#64
  inq := s.inq
  outq := []
  addrMax := s.addrMax

end Sys2Proof.Machine
end

