-- ==== Sys2Proof/Machine/Cycle.lean ====
section
/-! DEFINITION. The step cycle (rule R111) over a given execution of decoded instructions, and the placement of
an instruction where the cycle fetches next. -/

namespace Sys2Proof.Machine

/-- `Step()` (rule R111), lines 1 to 5 in their order: a Faulted or Halted core does nothing (rule R124), a
`pc` outside `[0, MLEN)` becomes −1, else the word at `pc` is fetched and decoded and its fault taken, or the
instruction executed by `run`. -/
def cycle (run : Instr → State → Result) (s : State) : Result :=
  if s.isFaulted then .next s
  else if s.pc = Config.haltPc then .next s
  else if ¬ s.pcInRange then .next { s with pc := Config.haltPc }
  else
    match decode s.instrWord with
    | .error e => .next (s.raise (raiseOfDecode e))
    | .ok i => run i s

/-- The four cells of the number `w`, the first in its low 64 bits: the longest instruction has four cells
(rules R80, R86). -/
def cellsOf (w : Nat) : List Word :=
  [BitVec.ofNat 64 w, BitVec.ofNat 64 (w / 2 ^ 64), BitVec.ofNat 64 (w / 2 ^ 128), BitVec.ofNat 64 (w / 2 ^ 192)]

/-- Store words from address `a` on as the host's `POKE` does (rule R42), less those whose address would lie
above `ADDR_MAX`. -/
def State.pokeAll : State → Nat → List Word → State
  | s, _, [] => s
  | s, a, v :: vs => State.pokeAll (if a ≤ (s.addrMax : Nat) then s.memWrite a v else s) (a + 1) vs

/-- The cells of `w` stored where the next step fetches. A core that is Running fetches at `pc`; one that is
not fetches nothing until a program is loaded, so the fault record is cleared and `pc` set to the entry
address, as `RESET` of an image with these cells does (rules R230, R231, R235). -/
def placeFetch (s : State) (w : Nat) : State :=
  if s.runState = .running then s.pokeAll s.pc.toInt.toNat (cellsOf w)
  else
    { s with pc := Config.entry, fcause := .none, fval := 0#64, fpc := 0#64 }.pokeAll 0 (cellsOf w)

end Sys2Proof.Machine
end

