-- ==== Sys2Proof/Machine/Flags.lean ====
section
/-! DEFINITION. The core has no flags and no condition codes (rule R24). What stands in their place is here: the
ALU's compare function, whose result is a word, and the test of a word against zero that the jumps make. -/

namespace Sys2Proof.Machine

/-- The word 1 for true and the word 0 for false (rules R24, R141). -/
def truthWord (b : Bool) : Word := if b then 1 else 0

/-- LT compares as signed integers (rules R141, R144). -/
def aluLess (a b : Word) : Word := truthWord (decide (a.toInt < b.toInt))

/-- EQ tests whether the two words are the same integer (rules R141, R145). -/
def aluEqual (a b : Word) : Word := truthWord (decide (a.toInt = b.toInt))

/-- "True" for JNZ and JZ is any non-zero word (rules R24, R151). -/
def isNonzero (a : Word) : Bool := decide (a.toInt ≠ 0)

end Sys2Proof.Machine
end

