-- ==== Sys2Proof/Machine/Operands.lean ====
section
/-! DEFINITION. The operand resolver (40_step_and_operands.md section 2): the parameter of a slot, the value of
an R slot and the address of a W slot, in all three modes. Every sum is an exact integer sum, checked against
`0 .. ADDR_MAX` and never wrapped (rules R92, R119). -/

namespace Sys2Proof.Machine

/-- `Param(k)`: the cell at `pc + 1 + k` (rule R116). -/
def State.param (s : State) (k : Fin 3) : Except Raise Word := s.memRead k (s.pc.toInt + 1 + ((k : Nat) : Int))

/-- The integer a position (`p`) or relative (`p + rb`) parameter names as an address (rules R89, R91, R119).
An immediate parameter names none. -/
def State.addrOf (s : State) (p : Word) : Mode → Option Int
  | .position => some p.toInt
  | .immediate => none
  | .relative => some (p.toInt + s.rb.toInt)

/-- `ReadOperand(k)` (rule R117). -/
def State.readOperand (s : State) (k : Fin 3) (m : Mode) : Except Raise Word :=
  match s.param k with
  | .error r => .error r
  | .ok p =>
    match s.addrOf p m with
    | none => .ok p
    | some ea => s.memRead k ea

/-- The destination is settable, or UnsupportedWrite carrying the instruction word (rules R98, R195). A
decoded instruction always passes: `decode` has made the same check (rule R113 line g). -/
def State.checkDest (s : State) (m : Mode) : Except Raise Unit :=
  if m.settable then .ok () else .error ⟨.unsupportedWrite, s.instrWord⟩

/-- `WriteAddr(k)` (rule R118): the parameter cell is read, the target cell is not. -/
def State.writeAddr (s : State) (k : Fin 3) (m : Mode) : Except Raise Nat :=
  match s.param k with
  | .error r => .error r
  | .ok p =>
    match s.addrOf p m with
    | none => .error ⟨.unsupportedWrite, s.instrWord⟩
    | some ea => if s.validAddr ea then .ok ea.toNat else .error ⟨.invalidAddress, wrap64 ((k : Nat) : Int)⟩

end Sys2Proof.Machine
end

