-- ==== Sys2Proof/Machine/Arithmetic.lean ====
section
/-! DEFINITION. ADD, MUL, LT and EQ, the instructions of format RRW (41_arithmetic.md). -/

namespace Sys2Proof.Machine

/-- The ALU's add: the exact sum, wrapped (rule R140). -/
def aluAdd (a b : Word) : Word := wrap64 (a.toInt + b.toInt)

/-- The ALU's multiply: the exact product, wrapped (rule R140). -/
def aluMul (a b : Word) : Word := wrap64 (a.toInt * b.toInt)

/-- The step of an RRW instruction from line 7 of rule R111 on: the slots are resolved in order (rule R115),
the sources are read before the one write (rule R120), and the next instruction is at `pc + 4`. -/
def execRRW (f : Word → Word → Word) (a b dest : Mode) (s : State) : Result :=
  resolved s (s.checkDest dest) fun _ =>
  resolved s (s.readOperand 0 a) fun va =>
  resolved s (s.readOperand 1 b) fun vb =>
  resolved s (s.writeAddr 2 dest) fun d =>
  retire (s.memWrite d (f va vb)) (s.pc.toInt + 4)

/-- ADD (rule R142). -/
def execAdd (a b dest : Mode) (s : State) : Result := execRRW aluAdd a b dest s

/-- MUL (rule R143). -/
def execMul (a b dest : Mode) (s : State) : Result := execRRW aluMul a b dest s

/-- LT (rule R144). -/
def execLt (a b dest : Mode) (s : State) : Result := execRRW aluLess a b dest s

/-- EQ (rule R145). -/
def execEq (a b dest : Mode) (s : State) : Result := execRRW aluEqual a b dest s

end Sys2Proof.Machine
end

