-- ==== Sys2Proof/Machine/ControlFlow.lean ====
section
/-! DEFINITION. JNZ, JZ and HLT (42_control_flow.md). -/

namespace Sys2Proof.Machine

/-- A conditional jump: both operands are resolved whether or not the jump is taken; the target is the value of
`b`, an absolute address (rules R151, R152, R156). -/
def execJump (taken : Word → Bool) (a b : Mode) (s : State) : Result :=
  resolved s (s.readOperand 0 a) fun va =>
  resolved s (s.readOperand 1 b) fun vb =>
  retire s (if taken va then vb.toInt else s.pc.toInt + 3)

/-- JNZ (rule R151). -/
def execJnz (a b : Mode) (s : State) : Result := execJump isNonzero a b s

/-- JZ (rule R152). -/
def execJz (a b : Mode) (s : State) : Result := execJump (fun v => !isNonzero v) a b s

/-- HLT (rule R153): no operand is resolved, `npc` is −1. -/
def execHlt (s : State) : Result := retire s (-1)

end Sys2Proof.Machine
end

