-- ==== Sys2Proof/Machine/InputOutput.lean ====
section
/-! DEFINITION. IN and OUT (43_io.md). -/

namespace Sys2Proof.Machine

/-- IN (rule R162): every fault is raised before the channel is looked at; with an empty channel the step
waits and changes nothing (rule R164); else the word is taken and stored in the same step. -/
def execIn (dest : Mode) (s : State) : Result :=
  resolved s (s.checkDest dest) fun _ =>
  resolved s (s.writeAddr 0 dest) fun d =>
  match s.inTake with
  | none => .next s
  | some (x, t) => retire (t.memWrite d x) (s.pc.toInt + 2)

/-- OUT (rule R163): one word output, no cell written, never a wait. -/
def execOut (a : Mode) (s : State) : Result :=
  resolved s (s.readOperand 0 a) fun va => retire (s.outPut va) (s.pc.toInt + 2)

end Sys2Proof.Machine
end

