-- ==== Sys2Proof/Machine/RelativeBase.lean ====
section
/-! DEFINITION. ARB (44_relative_base.md). -/

namespace Sys2Proof.Machine

/-- ARB (rule R180): the operand is read with the old `rb`, then `rb` receives the wrapped sum. -/
def execArb (a : Mode) (s : State) : Result :=
  resolved s (s.readOperand 0 a) fun va =>
  retire (s.setRb (wrap64 (s.rb.toInt + va.toInt))) (s.pc.toInt + 2)

end Sys2Proof.Machine
end

