-- ==== Sys2Proof/Machine/Step.lean ====
section
/-! DEFINITION. One step of the core, and the placement of an instruction where it fetches. -/

namespace Sys2Proof.Machine

/-- `Step()` (rule R111). -/
def step (s : State) : Host.Outcome State Fault Refusal := cycle exec s

/-- `s` with the instruction whose cells are the number `w` stored where `step` fetches its next instruction
(the bits of `w` above `nbits` are 0). -/
def State.withFetchWord (s : State) (_nbits w : Nat) : State := placeFetch s w

end Sys2Proof.Machine
end

