-- ==== Sys2Proof/Machine/HostPort.lean ====
section
/-! DEFINITION. The host side of the core (10_state.md section 7, 40_step_and_operands.md section 3): the report
of a step, `RUN`, the control and debug port, the status outputs and the channel signals. The host acts only
between steps (rules R53, R61, R110), so each transaction is a function of the state. -/

namespace Sys2Proof.Machine

/-- The state after one step. -/
def State.stepped (s : State) : State :=
  match step s with
  | .next t => t
  | .fault _ => s
  | .refused _ => s

/-- The report of a step (rule R126). -/
inductive Report where
  | continue
  | halted
  | faulted
  | waitingInput
  deriving DecidableEq, Repr

/-- `wait_in` (rule R43), recomputed: the core is Running, the instruction at `pc` decodes without fault to IN
with a valid destination, and `INQ` is empty. -/
def State.waitsForInput (s : State) : Bool :=
  decide (s.runState = .running) && !s.inAvail &&
    match decode s.instrWord with
    | .ok (.inp dest) =>
      match s.writeAddr 0 dest with
      | .ok _ => true
      | .error _ => false
    | _ => false

/-- The report of the step taken from `s` (rules R111, R126). -/
def State.report (s : State) : Report :=
  match s.stepped.runState with
  | .faulted => .faulted
  | .halted => .halted
  | .running => if s.waitsForInput then .waitingInput else .continue

/-- Words appended to a core's input queue (rules R40, R210). -/
def State.feed (s : State) (ws : List Word) : State := { s with inq := s.inq ++ ws }

/-- How a `RUN` stands after some turns of its loop (rule R125). -/
inductive RunEnd where
  /-- `RUN` has returned this report: Halted or Faulted. -/
  | returned (r : Report)
  /-- `RUN` still holds on the empty input channel after the turns given. -/
  | holding
  /-- `RUN` has not returned within the turns given: it has no step limit of its own. -/
  | stillRunning
  deriving DecidableEq, Repr

/-- The loop of `Run()` (rule R125), followed for the turns given; `holding` says whether it is at its
`hold until InAvail()`. An entry of the list is the words the host appends to `INQ` before that turn (rule R40: at
any time; within `RUN` that is between steps, rule R53). A turn of a hold with `INQ` still empty is no step; once a
word is there the loop continues. -/
def State.runLoop : Bool → List (List Word) → State → State × RunEnd
  | holding, [], s => (s, if holding then .holding else .stillRunning)
  | holding, ws :: turns, s =>
    let t := s.feed ws
    if holding = true ∧ t.inAvail = false then State.runLoop true turns t
    else
      match t.report with
      | .continue => State.runLoop false turns t.stepped
      | .waitingInput => State.runLoop true turns t.stepped
      | .halted => (t.stepped, .returned .halted)
      | .faulted => (t.stepped, .returned .faulted)

/-- `Run()` (rule R125) with the words that arrive while it runs. The list bounds the turns followed: the rule sets
no bound, and a model runs under fuel (rule R245). -/
def State.run (s : State) (turns : List (List Word)) : State × RunEnd := State.runLoop false turns s

/-- What `STATUS` returns (rule R42). -/
structure StatusView where
  pc : Word
  rb : Word
  mlen : Nat
  fcause : BitVec 3
  fval : Word
  fpc : Word
  runState : RunState
  deriving DecidableEq, Repr

/-- `STATUS` (rule R42). -/
def State.status (s : State) : StatusView where
  pc := s.pc
  rb := s.rb
  mlen := s.mlen
  fcause := faultCode s.fcause
  fval := s.fval
  fpc := s.fpc
  runState := s.runState

/-- The host transactions (rules R40, R42). -/
inductive HostCmd where
  | reset (image : List Word)
  | step
  /-- `RUN`, with the words the host appends while it runs, turn by turn (rules R40, R125). -/
  | run (turns : List (List Word))
  | peek (addr : Int)
  | poke (addr : Int) (v : Word)
  | status
  | appendInput (words : List Word)
  deriving DecidableEq, Repr

/-- What a transaction returns. -/
inductive HostReply where
  | done
  | refused
  | report (r : Report)
  | runEnd (r : RunEnd)
  | word (v : Word)
  | status (v : StatusView)
  deriving DecidableEq, Repr

/-- One host transaction (rules R40, R42, R230). `PEEK` and `POKE` outside `0 .. ADDR_MAX` are refused by the port
and have no effect on the core (rule R42). DESIGN CHOICE: so is `RESET` of an image longer than `ADDR_MAX + 1` cells;
rules R10 and R230 give the bound and say of such an image nothing (assumption 16). -/
def hostAct (c : HostCmd) (s : State) : State × HostReply :=
  match c with
  | .reset image => if image.length ≤ (s.addrMax : Nat) + 1 then (s.load image, .done) else (s, .refused)
  | .step => (s.stepped, .report s.report)
  | .run turns => ((s.run turns).1, .runEnd (s.run turns).2)
  | .peek addr => if s.validAddr addr then (s, .word (s.mem.read addr.toNat)) else (s, .refused)
  | .poke addr v => if s.validAddr addr then (s.memWrite addr.toNat v, .done) else (s, .refused)
  | .status => (s, .status s.status)
  | .appendInput words => (s.feed words, .done)

/-- The loader's check (rules R10, R237): every element of the image is a word, or the image is refused. -/
def loadImage : List Int → Option (List Word)
  | [] => some []
  | z :: zs =>
    if wmin ≤ z ∧ z ≤ wmax then
      match loadImage zs with
      | some ws => some (wrap64 z :: ws)
      | none => none
    else none

/-- The memory snapshot: the cells `0 .. MLEN − 1` as `PEEK` shows them (rules R42, R127). -/
def State.snapshot (s : State) : List Word := (List.range s.mlen).map s.mem.read

/-- The words the step taken from `s` outputs: the `out_valid` transactions with their `out_data` (rule R41). -/
def State.outputOfStep (s : State) : List Word := s.stepped.outq.drop s.outq.length

/-- `in_take`: whether the step taken from `s` removes the head of `INQ` (rule R40). -/
def State.takesInput (s : State) : Bool := decide (s.stepped.inq.length < s.inq.length)

end Sys2Proof.Machine
end

