-- ==== Sys2Proof/Machine/Pseudocode.lean ====
section
/-! DEFINITION. The spec's pseudocode of a step written out line by line on the digits of the instruction word
(rules R111, R113, R115 to R119, R140 to R145, R150 to R153, R162, R163, R180), with no instruction syntax in
between. It shares only the memory array and the fault entry with the model; a statement says that the two
agree. -/

namespace Sys2Proof.Machine

/-- The arity column of rule R85. -/
def pseudoArity (op : Nat) : Nat :=
  if op ∈ [1, 2, 7, 8] then 3 else if op ∈ [5, 6] then 2 else if op ∈ [3, 4, 9] then 1 else 0

/-- The W slot of an opcode (rule R113, line g). -/
def pseudoWSlot (op : Nat) : Option Nat :=
  if op ∈ [1, 2, 7, 8] then some 2 else if op = 3 then some 0 else none

/-- `Decode(w)` (rule R113): the opcode; the mode of slot `k` is `digit(w, k + 2)`. -/
def pseudoDecode (w : Word) : Except Raise Nat :=
  let z := w.toInt
  if z < 0 then .error ⟨.unknownOperation, wrap64 (trem z 100)⟩
  else
    let op := z.toNat % 100
    if op ∉ [1, 2, 3, 4, 5, 6, 7, 8, 9, 99] then .error ⟨.unknownOperation, wrap64 op⟩
    else if z > 99999 then .error ⟨.reservedEncoding, w⟩
    else if ∃ k ∈ List.range (pseudoArity op), digit z.toNat (k + 2) > 2 then .error ⟨.reservedEncoding, w⟩
    else
      match pseudoWSlot op with
      | some k => if digit z.toNat (k + 2) = 1 then .error ⟨.unsupportedWrite, w⟩ else .ok op
      | none => .ok op

/-- `MemRead` (rule R58). -/
def pseudoMemRead (s : State) (k : Nat) (addr : Int) : Except Raise Word :=
  if addr < 0 ∨ addr > (s.addrMax : Nat) then .error ⟨.invalidAddress, wrap64 k⟩ else .ok (s.mem.read addr.toNat)

/-- `EffAddr` (rule R119), for mode digit 0 or 2. -/
def pseudoEffAddr (s : State) (k m : Nat) (p : Word) : Except Raise Int :=
  let ea := if m = 0 then p.toInt else p.toInt + s.rb.toInt
  if ea < 0 ∨ ea > (s.addrMax : Nat) then .error ⟨.invalidAddress, wrap64 k⟩ else .ok ea

/-- `ReadOperand` (rules R116, R117). -/
def pseudoReadOperand (s : State) (k m : Nat) : Except Raise Word := do
  let p ← pseudoMemRead s k (s.pc.toInt + 1 + k)
  if m = 1 then return p
  let ea ← pseudoEffAddr s k m p
  pseudoMemRead s k ea

/-- `WriteAddr` (rule R118). -/
def pseudoWriteAddr (s : State) (k m : Nat) : Except Raise Int := do
  let p ← pseudoMemRead s k (s.pc.toInt + 1 + k)
  pseudoEffAddr s k m p

/-- What line 7 of rule R111 gathers: the source values in slot order and the destination address. -/
structure PseudoOperands where
  vals : List Word
  dest : Option Int
  deriving DecidableEq, Repr

/-- Line 7 of rule R111 from slot `k` on, `n` slots still to come. -/
def pseudoResolve (s : State) (w op : Nat) : Nat → Nat → PseudoOperands → Except Raise PseudoOperands
  | 0, _, acc => .ok acc
  | n + 1, k, acc =>
    if pseudoWSlot op = some k then do
      let d ← pseudoWriteAddr s k (digit w (k + 2))
      pseudoResolve s w op n (k + 1) { acc with dest := some d }
    else do
      let v ← pseudoReadOperand s k (digit w (k + 2))
      pseudoResolve s w op n (k + 1) { acc with vals := acc.vals ++ [v] }

/-- `MemWrite(d, 1, v)` (rule R59). -/
def pseudoMemWrite (s : State) (d : Int) (v : Word) : State :=
  let t := { s with mem := s.mem.write d.toNat v }
  if d ≥ t.mlen then { t with mlen := d.toNat + 1 } else t

/-- Line 9 of rule R111, `Execute`, with the `npc` of the instruction's own rule. -/
def pseudoExecute (s : State) (op : Nat) (vals : List Word) (d : Int) : State × Int :=
  let v0 := vals.getD 0 0
  let v1 := vals.getD 1 0
  if op = 1 then (pseudoMemWrite s d (wrap64 (v0.toInt + v1.toInt)), s.pc.toInt + 4)
  else if op = 2 then (pseudoMemWrite s d (wrap64 (v0.toInt * v1.toInt)), s.pc.toInt + 4)
  else if op = 7 then (pseudoMemWrite s d (if v0.toInt < v1.toInt then 1 else 0), s.pc.toInt + 4)
  else if op = 8 then (pseudoMemWrite s d (if v0 = v1 then 1 else 0), s.pc.toInt + 4)
  else if op = 3 then (pseudoMemWrite { s with inq := s.inq.tail } d (s.inq.headD 0), s.pc.toInt + 2)
  else if op = 4 then ({ s with outq := s.outq ++ [v0] }, s.pc.toInt + 2)
  else if op = 5 then (s, if v0 ≠ 0 then v1.toInt else s.pc.toInt + 3)
  else if op = 6 then (s, if v0 = 0 then v1.toInt else s.pc.toInt + 3)
  else if op = 9 then ({ s with rb := wrap64 (s.rb.toInt + v0.toInt) }, s.pc.toInt + 2)
  else (s, -1)

/-- `CommitPc` (rule R150). -/
def pseudoCommitPc (s : State) (npc : Int) : State :=
  if 0 ≤ npc ∧ npc < s.mlen then { s with pc := wrap64 npc } else { s with pc := wrap64 (-1) }

/-- `Step()` (rule R111), the state after it and its report. -/
def pseudoStep (s : State) : State × Report :=
  if s.fcause ≠ .none then (s, .faulted)
  else if s.pc.toInt = -1 then (s, .halted)
  else if s.pc.toInt < 0 ∨ s.pc.toInt ≥ s.mlen then ({ s with pc := wrap64 (-1) }, .halted)
  else
    let w := s.mem.read s.pc.toInt.toNat
    match pseudoDecode w with
    | .error r => (s.raise r, .faulted)
    | .ok op =>
      match pseudoResolve s w.toNat op (pseudoArity op) 0 ⟨[], none⟩ with
      | .error r => (s.raise r, .faulted)
      | .ok o =>
        if op = 3 ∧ s.inq = [] then (s, .waitingInput)
        else
          let e := pseudoExecute s op o.vals (o.dest.getD 0)
          let t := pseudoCommitPc e.1 e.2
          (t, if t.pc.toInt ≠ -1 then .continue else .halted)

end Sys2Proof.Machine
end

