-- ==== Sys2Proof/Machine/Ring.lean ====
section
/-! DEFINITION. The feedback ring (60_exceptions.md section 6): host software around `N` independent cores, one
core's output words appended to the next core's input queue (rules R62, R210 to R217). -/

namespace Sys2Proof.Machine

/-- The coordinator's state: the cores by number, the cyclic order with its head first, and the last word any
core has output (rules R210, R212, R215). -/
structure Ring where
  cores : List State
  order : List Nat
  last : Option Word
  deriving DecidableEq, Repr

/-- How the ring stands (rule R214). -/
inductive RingStatus where
  | running
  | done
  /-- A fault in core `i` ends the coordinator's run. -/
  | faulted (i : Nat)
  deriving DecidableEq, Repr

/-- The number of the first Faulted core, counted from `i`. -/
def firstFaulted : List State → Nat → Option Nat
  | [], _ => none
  | s :: ss, i => if s.isFaulted then some i else firstFaulted ss (i + 1)

/-- A fault in any core ends the run; the ring is done when no core is Running (rule R214). -/
def Ring.status (r : Ring) : RingStatus :=
  match firstFaulted r.cores 0 with
  | some i => .faulted i
  | none => if r.cores.any (fun s => decide (s.runState = .running)) then .running else .done

/-- The cores after core `i` has taken a step: the words it outputs are appended to the input queue of core
`(i + 1) mod N` (rules R210, R211). -/
def stepCore (cores : List State) (i : Nat) : List State :=
  match cores[i]? with
  | none => cores
  | some s => (cores.set i s.stepped).modify ((i + 1) % cores.length) (fun t => t.feed s.outputOfStep)

/-- One move of the coordinator (rule R212): the head core takes a step, and the order rotates when the core is
Halted or starved. -/
def Ring.move (r : Ring) : Ring :=
  match r.order with
  | [] => r
  | i :: rest =>
    match r.cores[i]? with
    | none => r
    | some s =>
      { cores := stepCore r.cores i
        order := if s.report = .halted ∨ s.report = .waitingInput then rest ++ [i] else r.order
        last := if s.outputOfStep = [] then r.last else s.outputOfStep.getLast? }

/-- The coordinator's run (rules R212, R214), followed for at most `fuel` moves. -/
def Ring.run : Nat → Ring → Ring
  | 0, r => r
  | fuel + 1, r => if r.status = .running then Ring.run fuel r.move else r

/-- The result of the ring, "last output" (rule R215): given once no core is Running. -/
def Ring.result (r : Ring) : Option Word := if r.status = .done then r.last else none

/-- The start of the ring (rule R217): every core is reset with the image, phase setting `i` is the first word
of core `i`'s queue, and the initial input is appended to core 0's queue. -/
def Ring.start (image phases initial : List Word) : Ring where
  cores := (phases.map fun p => (State.reset.load image).feed [p]).modify 0 (fun s => s.feed initial)
  order := List.range phases.length
  last := none

end Sys2Proof.Machine
end

