-- ==== Sys2Proof/Safety.lean ====
section
/-! DEFINITION. What counts as a good state and a good step, in the terms claims use: the invariant of the
states a run can reach, and the side condition under which a sum or product does not rest on the spec's own
decision D3 (rule R140, 92_eei_decisions.md). -/

namespace Sys2Proof.Machine

/-- The fault value fits its cause (rules R27, R190, R194 to R197). -/
def faultValueFits : FaultCause → Word → Prop
  | .none, v => v = 0
  | .unknownOperation, v => -99 ≤ v.toInt ∧ v.toInt ≤ 98 ∧ formatOf v.toInt.toNat = none
  | .unsupportedWrite, v => decode v = .error (.unsupportedWrite v)
  | .reservedEncoding, v => decode v = .error (.reservedEncoding v)
  | .invalidAddress, v => v = 0 ∨ v = 1 ∨ v = 2

/-- The invariant of the state between steps. -/
structure MachineInv (s : State) : Prop where
  /-- Memory keeps its canonical form. -/
  memCanonical : s.mem.wf
  /-- Every cell at or beyond `MLEN` holds 0 (rule R35). -/
  beyondExtentZero : ∀ c ∈ s.mem, c.1 < s.mlen
  /-- `MLEN` is in `0 .. ADDR_MAX + 1` (rule R34). -/
  extentBound : s.mlen ≤ (s.addrMax : Nat) + 1
  /-- `pc = −1` or `0 <= pc < MLEN` (rule R22). -/
  pcLegal : s.pc = Config.haltPc ∨ s.pcInRange
  /-- `FVAL` is what the cause records, 0 without a fault (rule R27). -/
  faultValue : faultValueFits s.fcause s.fval
  /-- `FPC` is 0 without a fault, and the `pc` the core keeps with one (rules R28, R191). -/
  faultPointer : s.fpc = if s.fcause = .none then 0 else s.pc
  /-- A fault leaves `pc` addressing the faulting instruction word (rule R192). -/
  faultedPc : s.isFaulted → s.pcInRange

/-- The integer is a word value (rule R11). -/
def isWordValue (z : Int) : Prop := wmin ≤ z ∧ z ≤ wmax

end Sys2Proof.Machine
end

