-- ==== Sys2Proof/Certificates/Slice0/Obligations.lean ====
section
/-! DEFINITION. The statements for the provers. The namespace `Sys2Proof.Rules` holds the words the statements
are written in; each is plain arithmetic on the word, or a record update. -/

open Sys2Proof Sys2Proof.Machine

namespace Sys2Proof.Rules

/-- The core is Running: no fault recorded and `0 <= pc < MLEN` (rule R36). -/
def Running (s : State) : Prop := s.fcause = .none ∧ 0 ≤ s.pc.toInt ∧ s.pc.toInt < (s.mlen : Int)

/-- The decimal digit of weight `10^k` of a word (rule R12). -/
def dig (w : Word) (k : Nat) : Int := w.toInt / 10 ^ k % 10

/-- The opcode field of a word (rule R82). -/
def op (w : Word) : Int := w.toInt % 100

/-- The ten defined opcodes (rule R82). -/
def opcodes : List Int := [1, 2, 3, 4, 5, 6, 7, 8, 9, 99]

/-- The number of operands of a defined opcode (rule R85). -/
def arity (o : Int) : Nat :=
  if o ∈ [1, 2, 7, 8] then 3 else if o ∈ [5, 6] then 2 else if o ∈ [3, 4, 9] then 1 else 0

/-- The W slot of a defined opcode (rule R85). -/
def writeSlot (o : Int) : Option Nat := if o ∈ [1, 2, 7, 8] then some 2 else if o = 3 then some 0 else none

/-- The value `CommitPc(npc)` gives `pc` (rule R150). -/
def committed (mlen : Nat) (npc : Int) : Word := if 0 ≤ npc ∧ npc < (mlen : Int) then wrap64 npc else wrap64 (-1)

/-- The InvalidAddress fault of slot `k` (rule R190). -/
def invalid (k : Fin 3) : Raise := ⟨.invalidAddress, wrap64 ((k : Nat) : Int)⟩

/-- The state after a fault: the record is written and nothing else changes (rule R191). -/
def faultedWith (s : State) (r : Raise) : State := { s with fcause := r.cause, fval := r.info, fpc := s.pc }

/-- The state after a retiring store of `v` at `d` with successor `npc` (rules R59, R150). -/
def stored (s : State) (d : Nat) (v : Word) (npc : Int) : State :=
  { s with mem := s.mem.write d v, mlen := max s.mlen (d + 1), pc := committed (max s.mlen (d + 1)) npc }

/-- The state after a retiring instruction that changes only `pc`. -/
def moved (s : State) (npc : Int) : State := { s with pc := committed s.mlen npc }

/-- Slot `k` of instruction `i` cannot be resolved: it is a used slot, and its address is outside
`0 .. ADDR_MAX` (rules R116 to R119). -/
def slotFaults (s : State) (i : Instr) (k : Fin 3) : Prop :=
  ∃ m, i.modes[(k : Nat)]? = some m ∧
    if writeSlot i.opcode = some (k : Nat) then ∃ r, s.writeAddr k m = .error r
    else ∃ r, s.readOperand k m = .error r

/-- The words that decode to an instruction of one operand digit `A` (rules R81, R99). -/
def legalWord (w : Word) (o : Int) : Prop := 0 ≤ w.toInt ∧ w.toInt ≤ 99999 ∧ op w = o

/-- What rules R142 to R145 say of the instruction with opcode `o` whose ALU function is `f`: its words, its
decode faults, its effect and its operand faults. -/
def rrwRule (mk : Mode → Mode → Mode → Instr) (o : Int) (f : Word → Word → Word) : Prop :=
  (∀ w a b dest, decode w = .ok (mk a b dest) ↔
    legalWord w o ∧ dig w 2 = a.toDigit ∧ dig w 3 = b.toDigit ∧ dig w 4 = dest.toDigit ∧ dest ≠ .immediate) ∧
  (∀ a b dest, (mk a b dest).length = 4) ∧
  (∀ w : Word, 0 ≤ w.toInt → op w = o → w.toInt > 99999 ∨ dig w 2 > 2 ∨ dig w 3 > 2 ∨ dig w 4 > 2 →
    decode w = .error (.reservedEncoding w)) ∧
  (∀ w : Word, legalWord w o → dig w 2 ≤ 2 → dig w 3 ≤ 2 → dig w 4 = 1 → decode w = .error (.unsupportedWrite w)) ∧
  (∀ s a b dest va vb d, dest ≠ .immediate → s.readOperand 0 a = .ok va → s.readOperand 1 b = .ok vb →
    s.writeAddr 2 dest = .ok d → exec (mk a b dest) s = .next (stored s d (f va vb) (s.pc.toInt + 4))) ∧
  (∀ s a b dest r, dest ≠ .immediate → s.readOperand 0 a = .error r →
    r = invalid 0 ∧ exec (mk a b dest) s = .next (faultedWith s (invalid 0))) ∧
  (∀ s a b dest va r, dest ≠ .immediate → s.readOperand 0 a = .ok va → s.readOperand 1 b = .error r →
    r = invalid 1 ∧ exec (mk a b dest) s = .next (faultedWith s (invalid 1))) ∧
  (∀ s a b dest va vb r, dest ≠ .immediate → s.readOperand 0 a = .ok va → s.readOperand 1 b = .ok vb →
    s.writeAddr 2 dest = .error r → r = invalid 2 ∧ exec (mk a b dest) s = .next (faultedWith s (invalid 2)))

/-- What rules R151 and R152 say of the jump with opcode `o` that is taken when `p` holds of the condition. -/
def jumpRule (mk : Mode → Mode → Instr) (o : Int) (p : Word → Prop) : Prop :=
  (∀ w a b, decode w = .ok (mk a b) ↔ legalWord w o ∧ dig w 2 = a.toDigit ∧ dig w 3 = b.toDigit) ∧
  (∀ a b, (mk a b).length = 3) ∧
  (∀ w : Word, 0 ≤ w.toInt → op w = o → w.toInt > 99999 ∨ dig w 2 > 2 ∨ dig w 3 > 2 →
    decode w = .error (.reservedEncoding w)) ∧
  (∀ s a b va vb, s.readOperand 0 a = .ok va → s.readOperand 1 b = .ok vb →
    (p va → exec (mk a b) s = .next (moved s vb.toInt)) ∧
    (¬ p va → exec (mk a b) s = .next (moved s (s.pc.toInt + 3)))) ∧
  (∀ s a b r, s.readOperand 0 a = .error r →
    r = invalid 0 ∧ exec (mk a b) s = .next (faultedWith s (invalid 0))) ∧
  (∀ s a b va r, s.readOperand 0 a = .ok va → s.readOperand 1 b = .error r →
    r = invalid 1 ∧ exec (mk a b) s = .next (faultedWith s (invalid 1)))

/-- What rules R163 and R180 say of the one-operand instruction with opcode `o` whose effect on the state is
`f`: the successor is `pc + 2`. -/
def readRule (mk : Mode → Instr) (o : Int) (f : State → Word → State) : Prop :=
  (∀ w a, decode w = .ok (mk a) ↔ legalWord w o ∧ dig w 2 = a.toDigit) ∧
  (∀ a, (mk a).length = 2) ∧
  (∀ w : Word, 0 ≤ w.toInt → op w = o → w.toInt > 99999 ∨ dig w 2 > 2 → decode w = .error (.reservedEncoding w)) ∧
  (∀ s a v, s.readOperand 0 a = .ok v → exec (mk a) s = .next (moved (f s v) (s.pc.toInt + 2))) ∧
  (∀ s a r, s.readOperand 0 a = .error r → r = invalid 0 ∧ exec (mk a) s = .next (faultedWith s (invalid 0)))

/-- `t` is `s` after storing `f` of the two source operands at the address of the destination operand. -/
def storesAt (f : Word → Word → Word) (a b dest : Mode) (s t : State) : Prop :=
  ∃ va vb d, s.readOperand 0 a = .ok va ∧ s.readOperand 1 b = .ok vb ∧ s.writeAddr 2 dest = .ok d ∧
    t = stored s d (f va vb) (s.pc.toInt + 4)

/-- The one effect of a retiring instruction (rule R122), on the operands the resolver gives it. -/
def retires (i : Instr) (s t : State) : Prop :=
  match i with
  | .add a b dest => storesAt (fun va vb => wrap64 (va.toInt + vb.toInt)) a b dest s t
  | .mul a b dest => storesAt (fun va vb => wrap64 (va.toInt * vb.toInt)) a b dest s t
  | .lt a b dest => storesAt (fun va vb => if va.toInt < vb.toInt then 1 else 0) a b dest s t
  | .eq a b dest => storesAt (fun va vb => if va.toInt = vb.toInt then 1 else 0) a b dest s t
  | .inp dest => ∃ d x rest, s.writeAddr 0 dest = .ok d ∧ s.inq = x :: rest ∧
      t = stored { s with inq := rest } d x (s.pc.toInt + 2)
  | .out a => ∃ v, s.readOperand 0 a = .ok v ∧ t = moved { s with outq := s.outq ++ [v] } (s.pc.toInt + 2)
  | .jnz a b => ∃ va vb, s.readOperand 0 a = .ok va ∧ s.readOperand 1 b = .ok vb ∧
      t = moved s (if va.toInt ≠ 0 then vb.toInt else s.pc.toInt + 3)
  | .jz a b => ∃ va vb, s.readOperand 0 a = .ok va ∧ s.readOperand 1 b = .ok vb ∧
      t = moved s (if va.toInt = 0 then vb.toInt else s.pc.toInt + 3)
  | .arb a => ∃ v, s.readOperand 0 a = .ok v ∧
      t = moved { s with rb := wrap64 (s.rb.toInt + v.toInt) } (s.pc.toInt + 2)
  | .hlt => t = moved s (-1)

/-- Everything but `pc`, memory, `MLEN` and the fault record is as before. -/
def sameElsewhere (s t : State) : Prop :=
  t.rb = s.rb ∧ t.inq = s.inq ∧ t.outq = s.outq ∧ t.addrMax = s.addrMax

/-- Every cell reads as before and `MLEN` is as before. -/
def sameMemory (s t : State) : Prop := (∀ x, t.mem.read x = s.mem.read x) ∧ t.mlen = s.mlen

/-- The fault record is as before. -/
def sameRecord (s t : State) : Prop := t.fcause = s.fcause ∧ t.fval = s.fval ∧ t.fpc = s.fpc

/-- The frame of a storing RRW instruction. -/
def storeFrame (i : Mode → Mode → Mode → Instr) : Prop :=
  ∀ a b dest s t, dest ≠ .immediate → exec (i a b dest) s = .next t →
    sameElsewhere s t ∧
    (∀ d, s.writeAddr 2 dest = .ok d → ∀ x, x ≠ d → t.mem.read x = s.mem.read x) ∧
    (∀ r, s.readOperand 0 a = .error r ∨ s.readOperand 1 b = .error r ∨ s.writeAddr 2 dest = .error r →
      sameMemory s t ∧ t.pc = s.pc) ∧
    (∀ va vb d, s.readOperand 0 a = .ok va → s.readOperand 1 b = .ok vb → s.writeAddr 2 dest = .ok d →
      sameRecord s t)

end Sys2Proof.Rules

open Sys2Proof.Rules

/-! ### Encoding -/

/-- Rule R106: the canonical word of a well-formed instruction is its opcode plus its mode digits in their
places; decoding it gives the instruction back; the least legal word is 1, the greatest canonical word 22208
(EQ rel, rel, rel), the greatest legal word 99999 (HLT); there are 99 canonical legal words. (The spec marks
rule R106 as derived from R81, R85 and R88.) -/
def Obligations.CanonicalWordsRoundTrip : Prop :=
  (∀ i : Instr, i.wellFormed = true →
    (encode i).toInt = i.opcode + ((i.modes.mapIdx fun k m => m.toDigit * 10 ^ (k + 2)).sum : Nat) ∧
    decode (encode i) = .ok i ∧ 1 ≤ (encode i).toInt ∧ (encode i).toInt ≤ 22208) ∧
  (∀ w i, decode w = .ok i → 1 ≤ w.toInt ∧ w.toInt ≤ 99999) ∧
  encode (.add .position .position .position) = 1 ∧
  encode (.eq .relative .relative .relative) = 22208 ∧
  decode 99999 = .ok .hlt ∧
  (∃ l : List Instr, l.Nodup ∧ l.length = 99 ∧ ∀ i, i ∈ l ↔ i.wellFormed = true)

/-- The words that decode to an instruction are exactly those of at most five digits whose last two are its
opcode and whose used mode digits are its modes; the other digits are free (rules R81, R93, R99, R100). -/
def Obligations.LegalWordsExactly : Prop :=
  ∀ (w : Word) (i : Instr), decode w = .ok i ↔
    i.wellFormed = true ∧ legalWord w i.opcode ∧ ∀ k m, i.modes[k]? = some m → dig w (k + 2) = m.toDigit

/-- Rules R94 and R95: a non-negative word with an undefined opcode, and every negative word, raises
UnknownOperation with the opcode. (What a negative word's opcode is, is the spec's own decision D9.) -/
def Obligations.UndefinedOpcodesFault : Prop :=
  ∀ s, Running s →
    (0 ≤ s.instrWord.toInt → op s.instrWord ∉ opcodes →
      step s = .next (faultedWith s ⟨.unknownOperation, wrap64 (op s.instrWord)⟩)) ∧
    (s.instrWord.toInt < 0 →
      step s = .next (faultedWith s ⟨.unknownOperation, wrap64 (trem s.instrWord.toInt 100)⟩) ∧
      -99 ≤ trem s.instrWord.toInt 100 ∧ trem s.instrWord.toInt 100 ≤ 0)

/-- Rules R96 and R97: a word above 99999 with a defined opcode, and one with a mode digit 3 to 9 in a used
slot, raises ReservedEncoding with the word (the spec's own decisions D10 and D11). -/
def Obligations.ReservedEncodingsFault : Prop :=
  ∀ s, Running s → 0 ≤ s.instrWord.toInt → op s.instrWord ∈ opcodes →
    (s.instrWord.toInt > 99999 ∨ ∃ k < arity (op s.instrWord), dig s.instrWord (k + 2) > 2) →
    step s = .next (faultedWith s ⟨.reservedEncoding, s.instrWord⟩)

/-- Rule R98: mode digit 1 in the W slot (`C` for ADD, MUL, LT, EQ, `A` for IN) raises UnsupportedWrite with
the word, at decode: no operand is read and no input word taken (the fault is the source's, its place before
the operands the spec's own decision D14 and D18). -/
def Obligations.ImmediateDestinationsFault : Prop :=
  ∀ s, Running s → 0 ≤ s.instrWord.toInt → s.instrWord.toInt ≤ 99999 →
    (op s.instrWord ∈ [1, 2, 7, 8] ∧ dig s.instrWord 2 ≤ 2 ∧ dig s.instrWord 3 ≤ 2 ∧ dig s.instrWord 4 = 1) ∨
      (op s.instrWord = 3 ∧ dig s.instrWord 2 = 1) →
    step s = .next (faultedWith s ⟨.unsupportedWrite, s.instrWord⟩)

/-- The words of rule R105's table decode to the instructions they stand for. -/
def Obligations.ExampleWordsDecode : Prop :=
  decode 1 = .ok (.add .position .position .position) ∧
  decode 2 = .ok (.mul .position .position .position) ∧
  decode 1002 = .ok (.mul .position .immediate .position) ∧
  decode 3 = .ok (.inp .position) ∧
  decode 4 = .ok (.out .position) ∧
  decode 109 = .ok (.arb .immediate) ∧
  decode 204 = .ok (.out .relative) ∧
  decode 1001 = .ok (.add .position .immediate .position) ∧
  decode 1008 = .ok (.eq .position .immediate .position) ∧
  decode 1006 = .ok (.jz .position .immediate) ∧
  decode 1102 = .ok (.mul .immediate .immediate .position) ∧
  decode 104 = .ok (.out .immediate) ∧
  decode 8 = .ok (.eq .position .position .position) ∧
  decode 7 = .ok (.lt .position .position .position) ∧
  decode 1005 = .ok (.jnz .position .immediate) ∧
  decode 99 = .ok .hlt

/-! ### The step -/

/-- A Running core executes the instruction that the cell at `pc` decodes to; nothing is added around it. -/
def Obligations.StepRunsDecodedInstruction : Prop :=
  ∀ s i, Running s → decode (s.mem.read s.pc.toInt.toNat) = .ok i → step s = exec i s

/-- `withFetchWord` places an instruction where the next step fetches, in every state of the invariant: the
step decodes and executes it. (The model's own interface: assumption 3.) -/
def Obligations.PlacedInstructionRunsNext : Prop :=
  ∀ s nbits w i, MachineInv s → decodeTableWord nbits w = some i →
    step (s.withFetchWord nbits w) = exec i (s.withFetchWord nbits w)

/-- Rule R124: in a terminal state a step changes nothing, takes no input, produces no output, and reports
Halted or Faulted again (of two behaviours the source allows, the spec's own decision D16). -/
def Obligations.TerminalStepsChangeNothing : Prop :=
  (∀ s : State, s.fcause = .none → s.pc.toInt = -1 → step s = .next s ∧ s.report = .halted) ∧
  (∀ s : State, s.fcause ≠ .none → step s = .next s ∧ s.report = .faulted)

/-- Rules R111 and R113: the step, its decoder and its report agree with the spec's pseudocode, written out on
the digits of the word. The premise rules out states in which `MLEN` exceeds the address space. -/
def Obligations.StepIsThePseudocode : Prop :=
  ∀ s : State, s.mlen ≤ (s.addrMax : Nat) + 1 → step s = .next (pseudoStep s).1 ∧ s.report = (pseudoStep s).2

/-- A step always answers a next state: no state and no instruction stops the model. (That faults and waits are
next states is the model's reading, assumption 9; for a term that no word decodes to, which the second clause
takes in, the next state is the model's choice, assumption 6.) -/
def Obligations.StepNeverStops : Prop :=
  (∀ s, ∃ t, step s = .next t) ∧ (∀ i s, ∃ t, exec i s = .next t)

/-- Rules R122 and R123: the step of a Running core retires with exactly one effect, on the operands the resolver
gives, and the `pc` update; or it faults and only the record changes; or it waits and nothing changes. (The spec
marks both rules as derived.) -/
def Obligations.OneEffectOrFaultOrWait : Prop :=
  ∀ s t, Running s → step s = .next t →
    (∃ i, decode s.instrWord = .ok i ∧ retires i s t) ∨
    (∃ r, r.cause ≠ .none ∧ t = faultedWith s r) ∨
    (∃ dest d, decode s.instrWord = .ok (.inp dest) ∧ s.writeAddr 0 dest = .ok d ∧ s.inq = [] ∧ t = s)

/-! ### Invariants -/

/-- The invariant holds of `State.reset`, which is RESET of the empty image with an empty input queue by the model's
choice (assumptions 2 and 4); InvariantAfterLoad says it of RESET with every image. -/
def Obligations.InvariantAtReset : Prop := MachineInv State.reset

/-- The invariant holds after RESET with any image that fits, from any state (rules R230 to R236). -/
def Obligations.InvariantAfterLoad : Prop :=
  ∀ (s : State) (image : List Word), image.length ≤ (s.addrMax : Nat) + 1 → MachineInv (s.load image)

/-- Every step keeps the invariant: memory canonical and zero beyond `MLEN`, `MLEN` in bounds, `pc` −1 or in
`[0, MLEN)`, and the fault record fitting its cause (rules R22, R27, R28, R34, R35). -/
def Obligations.InvariantKeptByStep : Prop := ∀ s t, MachineInv s → step s = .next t → MachineInv t

/-- Every host transaction keeps the invariant (rules R40, R42, R125). -/
def Obligations.InvariantKeptByHost : Prop := ∀ c s, MachineInv s → MachineInv (hostAct c s).1

/-- Rule R36: on the states of the invariant the three run states are exhaustive and exclusive, and are a
function of `pc` and `FCAUSE`; no step leaves Halted or Faulted, and a core that waits for input is Running. -/
def Obligations.RunStateCases : Prop :=
  ∀ s, MachineInv s →
    (s.runState = .faulted ↔ s.fcause ≠ .none) ∧
    (s.runState = .halted ↔ s.fcause = .none ∧ s.pc.toInt = -1) ∧
    (s.runState = .running ↔ Running s) ∧
    (s.runState ≠ .running → step s = .next s) ∧
    (s.waitsForInput = true → s.runState = .running)

/-! ### Faults -/

/-- Rule R192: a step that enters the Faulted state changes only the record; `pc = FPC` addresses the faulting
word, and the step reports Faulted. (The spec marks the rule as derived from R111 and R123.) -/
def Obligations.FaultsArePrecise : Prop :=
  ∀ s t : State, s.fcause = .none → step s = .next t → t.fcause ≠ .none →
    t = { s with fcause := t.fcause, fval := t.fval, fpc := s.pc } ∧ t.pc = t.fpc ∧
    0 ≤ t.fpc.toInt ∧ t.fpc.toInt < (t.mlen : Int) ∧ s.report = .faulted

/-- Rule R190: each of the four faults is raised exactly when the table says, with the value it says, and no
other cause is ever recorded. (Causes 3 and 4 are the spec's own decisions D5, D10 and D11.) -/
def Obligations.FourFaultsExactly : Prop :=
  ∀ s t, Running s → step s = .next t →
    (t.fcause = .unknownOperation ↔ s.instrWord.toInt < 0 ∨ op s.instrWord ∉ opcodes) ∧
    (t.fcause = .unknownOperation →
      t.fval.toInt = if s.instrWord.toInt < 0 then trem s.instrWord.toInt 100 else op s.instrWord) ∧
    (t.fcause = .reservedEncoding ↔ 0 ≤ s.instrWord.toInt ∧ op s.instrWord ∈ opcodes ∧
      (s.instrWord.toInt > 99999 ∨ ∃ k < arity (op s.instrWord), dig s.instrWord (k + 2) > 2)) ∧
    (t.fcause = .unsupportedWrite ↔ 0 ≤ s.instrWord.toInt ∧ s.instrWord.toInt ≤ 99999 ∧ op s.instrWord ∈ opcodes ∧
      (∀ k < arity (op s.instrWord), dig s.instrWord (k + 2) ≤ 2) ∧
      ∃ k, writeSlot (op s.instrWord) = some k ∧ dig s.instrWord (k + 2) = 1) ∧
    (t.fcause = .reservedEncoding ∨ t.fcause = .unsupportedWrite → t.fval = s.instrWord) ∧
    (t.fcause = .invalidAddress ↔ ∃ i k, decode s.instrWord = .ok i ∧ slotFaults s i k) ∧
    (t.fcause = .invalidAddress → ∃ i k, decode s.instrWord = .ok i ∧ slotFaults s i k ∧
      (∀ j < k, ¬ slotFaults s i j) ∧ t.fval = wrap64 ((k : Nat) : Int))

/-- Rule R199: only RESET leaves the Faulted state; whatever else the host does, the record keeps the first
fault, and no step changes anything. -/
def Obligations.FaultedUntilReset : Prop :=
  ∀ s : State, s.fcause ≠ .none →
    s.stepped = s ∧
    ∀ c, (∀ image, c ≠ .reset image) →
      (hostAct c s).1.fcause = s.fcause ∧ (hostAct c s).1.fval = s.fval ∧ (hostAct c s).1.fpc = s.fpc ∧
      (hostAct c s).1.pc = s.pc ∧ (hostAct c s).1.rb = s.rb ∧ (hostAct c s).1.outq = s.outq

/-! ### Operands and memory -/

/-- Rules R116 and R117: the parameter of slot `k` is the cell at `pc + 1 + k`; an R slot's value is the
parameter (immediate), or the cell it addresses (position), or the cell at parameter plus `rb`, an exact sum
(relative); an address outside `0 .. ADDR_MAX` raises InvalidAddress of the slot. -/
def Obligations.ReadOperandByMode : Prop :=
  ∀ (s : State) (k : Fin 3),
    (¬ s.validAddr (s.pc.toInt + 1 + (k : Nat)) → s.param k = .error (invalid k) ∧
      ∀ m, s.readOperand k m = .error (invalid k)) ∧
    (s.validAddr (s.pc.toInt + 1 + (k : Nat)) →
      ∃ p, p = s.mem.read (s.pc.toInt + 1 + (k : Nat)).toNat ∧ s.param k = .ok p ∧
        s.readOperand k .immediate = .ok p ∧
        (s.validAddr p.toInt → s.readOperand k .position = .ok (s.mem.read p.toInt.toNat)) ∧
        (¬ s.validAddr p.toInt → s.readOperand k .position = .error (invalid k)) ∧
        (s.validAddr (p.toInt + s.rb.toInt) →
          s.readOperand k .relative = .ok (s.mem.read (p.toInt + s.rb.toInt).toNat)) ∧
        (¬ s.validAddr (p.toInt + s.rb.toInt) → s.readOperand k .relative = .error (invalid k)))

/-- Rules R118 and R119: the address of a W slot is the parameter (position) or the exact sum of the parameter
and `rb` (relative), checked against `0 .. ADDR_MAX` and never wrapped; the target cell is not read. -/
def Obligations.WriteAddressByMode : Prop :=
  ∀ (s : State) (k : Fin 3),
    (¬ s.validAddr (s.pc.toInt + 1 + (k : Nat)) → ∀ m, s.writeAddr k m = .error (invalid k)) ∧
    (s.validAddr (s.pc.toInt + 1 + (k : Nat)) →
      ∃ p, p = s.mem.read (s.pc.toInt + 1 + (k : Nat)).toNat ∧
        (s.validAddr p.toInt → s.writeAddr k .position = .ok p.toInt.toNat) ∧
        (¬ s.validAddr p.toInt → s.writeAddr k .position = .error (invalid k)) ∧
        (s.validAddr (p.toInt + s.rb.toInt) → s.writeAddr k .relative = .ok (p.toInt + s.rb.toInt).toNat) ∧
        (¬ s.validAddr (p.toInt + s.rb.toInt) → s.writeAddr k .relative = .error (invalid k)))

/-- A write stores the word in its cell and in no other, extends `MLEN` over the cell, also for the word 0, and
keeps the canonical form of memory (rules R58, R59). -/
def Obligations.WriteStoresAndExtends : Prop :=
  ∀ (s : State) (a : Nat) (v : Word), s.mem.wf →
    (∀ b, (s.memWrite a v).mem.read b = if b = a then v else s.mem.read b) ∧
    (s.memWrite a v).mlen = max s.mlen (a + 1) ∧
    (s.memWrite a v).mem.wf ∧
    (s.memWrite a v).pc = s.pc ∧ sameElsewhere s (s.memWrite a v) ∧ sameRecord s (s.memWrite a v)

/-- Two canonical memories that read the same everywhere are equal data. -/
def Obligations.CanonicalMemoryIsUnique : Prop :=
  ∀ m n : Memory, m.wf → n.wf → (∀ a, m.read a = n.read a) → m = n

/-- Rule R35: every cell at or beyond `MLEN` holds 0: reset establishes it, and every step and every host
transaction keeps it. (The spec marks the rule as derived from R34, R58 and R59.) -/
def Obligations.CellsBeyondExtentAreZero : Prop :=
  (∀ (s : State) image a, (s.load image).mlen ≤ a → (s.load image).mem.read a = 0) ∧
  (∀ s t, (∀ a, s.mlen ≤ a → s.mem.read a = 0) → step s = .next t → ∀ a, t.mlen ≤ a → t.mem.read a = 0) ∧
  (∀ s c, (∀ a, s.mlen ≤ a → s.mem.read a = 0) →
    ∀ a, (hostAct c s).1.mlen ≤ a → (hostAct c s).1.mem.read a = 0)

/-! ### The ten instructions -/

/-- Rule R142, ADD: its words and their decode faults; where the operands resolve, `dest` receives the wrapped sum,
`MLEN` grows over it and the pointer advances by 4; else the lowest faulting slot is recorded and nothing is
written; the rule's example. -/
def Obligations.AddStoresWrappedSum : Prop :=
  rrwRule .add 1 (fun a b => wrap64 (a.toInt + b.toInt)) ∧
  (State.reset.load [1, 0, 0, 0, 99]).stepped.snapshot = [2, 0, 0, 0, 99] ∧
  (State.reset.load [1, 0, 0, 0, 99]).stepped.pc = 4

/-- Rule R143, MUL: its words and their decode faults; where the operands resolve, `dest` receives the wrapped
product, `MLEN` grows over it and the pointer advances by 4; else the lowest faulting slot is recorded and nothing
is written; the rule's examples. -/
def Obligations.MulStoresWrappedProduct : Prop :=
  rrwRule .mul 2 (fun a b => wrap64 (a.toInt * b.toInt)) ∧
  (State.reset.load [2, 3, 0, 3, 99]).stepped.snapshot = [2, 3, 0, 6, 99] ∧
  (State.reset.load [2, 3, 0, 3, 99]).stepped.pc = 4 ∧
  (State.reset.load [1002, 4, 3, 4, 33]).stepped.snapshot = [1002, 4, 3, 4, 99] ∧
  (State.reset.load [1002, 4, 3, 4, 33]).stepped.pc = 4 ∧
  (State.reset.load [1102, 34915192, 34915192, 7, 4, 7, 99, 0]).stepped.mem.read 7 = 1219070632396864

/-- Rule R144, LT: its words and their decode faults; where the operands resolve, `dest` receives 1 when `a < b` as
signed integers, else 0, and the pointer advances by 4; else the lowest faulting slot is recorded and nothing is
written; the rule's example. -/
def Obligations.LtStoresSignedLess : Prop :=
  rrwRule .lt 7 (fun a b => if a.toInt < b.toInt then 1 else 0) ∧
  ({ State.reset.load [3, 9, 7, 9, 10, 9, 4, 9, 99, 5, 8] with pc := 2 } : State).stepped.mem.read 9 = 1 ∧
  ({ State.reset.load [3, 9, 7, 9, 10, 9, 4, 9, 99, 5, 8] with pc := 2 } : State).stepped.pc = 6

/-- Rule R145, EQ: its words and their decode faults; where the operands resolve, `dest` receives 1 when the two
words are the same integer, else 0, and the pointer advances by 4; else the lowest faulting slot is recorded and
nothing is written; the rule's examples. -/
def Obligations.EqStoresEquality : Prop :=
  rrwRule .eq 8 (fun a b => if a.toInt = b.toInt then 1 else 0) ∧
  ({ State.reset.load [3, 9, 8, 9, 10, 9, 4, 9, 99, 8, 8] with pc := 2 } : State).stepped.mem.read 9 = 1 ∧
  ({ State.reset.load [3, 9, 8, 9, 10, 9, 4, 9, 99, 8, 8] with pc := 2 } : State).stepped.pc = 6 ∧
  ((State.reset.load [1008, 100, 16, 101]).memWrite 100 16).stepped.mem.read 101 = 1 ∧
  ((State.reset.load [1008, 100, 16, 101]).memWrite 100 15).stepped.mem.read 101 = 0

/-- Rule R151, JNZ: its words and their decode fault; the pointer becomes the value of `b`, committed, when `a` is
not 0, else it advances by 3; both operands are always resolved and the lowest faulting one is recorded; the
rule's example. -/
def Obligations.JnzJumpsWhenNonzero : Prop :=
  jumpRule .jnz 5 (fun a => a.toInt ≠ 0) ∧
  ({ State.reset with mem := [(22, 1005), (23, 28), (24, 6), (28, 4)], mlen := 29, pc := 22 } : State).stepped.pc = 6 ∧
  ({ State.reset with mem := [(22, 1005), (23, 28), (24, 6)], mlen := 29, pc := 22 } : State).stepped.pc = 25

/-- Rule R152, JZ: its words and their decode fault; the pointer becomes the value of `b`, committed, when `a` is 0,
else it advances by 3; the operand faults of JNZ; the rule's example. -/
def Obligations.JzJumpsWhenZero : Prop :=
  jumpRule .jz 6 (fun a => a.toInt = 0) ∧
  ({ State.reset with mem := [(12, 1006), (13, 101)], mlen := 102, pc := 12 } : State).stepped.pc = 0 ∧
  ({ State.reset with mem := [(12, 1006), (13, 101), (101, 1)], mlen := 102, pc := 12 } : State).stepped.pc = 15

/-- Rule R153, HLT: every word `xxx99` of at most five digits is HLT; it sets `pc` to −1, changes nothing else,
resolves no operand, and every later step does nothing; a longer word with opcode 99 is ReservedEncoding. -/
def Obligations.HltHalts : Prop :=
  (∀ w, decode w = .ok .hlt ↔ legalWord w 99) ∧
  Instr.hlt.length = 1 ∧
  (∀ w : Word, w.toInt > 99999 → op w = 99 → decode w = .error (.reservedEncoding w)) ∧
  (∀ s : State, exec .hlt s = .next { s with pc := wrap64 (-1) }) ∧
  (∀ s : State, step { s with pc := wrap64 (-1) } = .next { s with pc := wrap64 (-1) }) ∧
  ({ State.reset.load [2, 0, 0, 0, 99] with pc := 4 } : State).stepped.pc.toInt = -1 ∧
  ({ State.reset.load [2, 0, 0, 0, 99] with pc := 4 } : State).stepped.snapshot = [2, 0, 0, 0, 99]

/-- Rule R162, IN: its words and their decode faults; with a word available it is taken and stored in the same step
and the pointer advances by 2; with none the step waits and changes nothing; every fault is raised before the
channel is looked at. -/
def Obligations.InTakesAndStores : Prop :=
  (∀ w dest, decode w = .ok (.inp dest) ↔ legalWord w 3 ∧ dig w 2 = dest.toDigit ∧ dest ≠ .immediate) ∧
  (∀ dest, (Instr.inp dest).length = 2) ∧
  (∀ w : Word, 0 ≤ w.toInt → op w = 3 → w.toInt > 99999 ∨ dig w 2 > 2 → decode w = .error (.reservedEncoding w)) ∧
  (∀ w : Word, legalWord w 3 → dig w 2 = 1 → decode w = .error (.unsupportedWrite w)) ∧
  (∀ s dest d x rest, dest ≠ .immediate → s.writeAddr 0 dest = .ok d → s.inq = x :: rest →
    exec (.inp dest) s = .next (stored { s with inq := rest } d x (s.pc.toInt + 2))) ∧
  (∀ s dest d, dest ≠ .immediate → s.writeAddr 0 dest = .ok d → s.inq = [] → exec (.inp dest) s = .next s) ∧
  (∀ s dest r, dest ≠ .immediate → s.writeAddr 0 dest = .error r →
    r = invalid 0 ∧ exec (.inp dest) s = .next (faultedWith s (invalid 0))) ∧
  ({ State.reset.load [3, 0, 4, 0, 99] with inq := [10] } : State).stepped.snapshot = [10, 0, 4, 0, 99] ∧
  ({ State.reset.load [3, 0, 4, 0, 99] with inq := [10] } : State).stepped.inq = [] ∧
  ({ State.reset.load [3, 0, 4, 0, 99] with inq := [10] } : State).stepped.pc = 2

/-- Rule R163, OUT: its words, their decode fault and the operand fault; exactly one word, the value of `a`, is
appended to `OUTQ`; the pointer advances by 2. -/
def Obligations.OutAppendsOneWord : Prop :=
  readRule .out 4 (fun s v => { s with outq := s.outq ++ [v] }) ∧
  ({ State.reset.load [10, 0, 4, 0, 99] with pc := 2 } : State).stepped.outq = [10] ∧
  ({ State.reset.load [10, 0, 4, 0, 99] with pc := 2 } : State).stepped.pc = 4 ∧
  (State.reset.load [104, 1125899906842624, 99]).stepped.outq = [1125899906842624] ∧
  ({ State.reset.load [109, 1, 204, -1] with pc := 2, rb := 1 } : State).stepped.outq = [109]

/-- Rule R180, ARB: its words, their decode fault and the operand fault; `rb` receives the wrapped sum of `rb` and
the operand, read with the old `rb`; the pointer advances by 2. -/
def Obligations.ArbAddsToRelativeBase : Prop :=
  readRule .arb 9 (fun s v => { s with rb := wrap64 (s.rb.toInt + v.toInt) }) ∧
  (State.reset.load [109, 1, 204, -1]).stepped.rb = 1 ∧
  (State.reset.load [109, 1, 204, -1]).stepped.pc = 2

/-! ### Frames -/

/-- ADD, MUL, LT and EQ change no register but `pc` and `MLEN`, neither channel, and no cell but the one the
destination operand addresses; where an operand faults they change no cell, and where none does they leave the
record. -/
def Obligations.StoringInstructionsFrame : Prop :=
  storeFrame .add ∧ storeFrame .mul ∧ storeFrame .lt ∧ storeFrame .eq

/-- IN changes no register but `pc` and `MLEN`, not `OUTQ`, and no cell but the one its operand addresses; `INQ`
loses at most its head; where the operand faults or no word is available it changes no cell and takes no word. -/
def Obligations.InFrame : Prop :=
  ∀ dest s t, dest ≠ .immediate → exec (.inp dest) s = .next t →
    t.rb = s.rb ∧ t.outq = s.outq ∧ t.addrMax = s.addrMax ∧
    (∀ d, s.writeAddr 0 dest = .ok d → sameRecord s t ∧ t.inq = s.inq.tail ∧
      ∀ x, x ≠ d → t.mem.read x = s.mem.read x) ∧
    (∀ r, s.writeAddr 0 dest = .error r → sameMemory s t ∧ t.inq = s.inq ∧ t.pc = s.pc) ∧
    (s.inq = [] → sameMemory s t ∧ t.pc = s.pc)

/-- OUT changes no cell, not `MLEN`, not `rb`, not `INQ`; it leaves the record where its operand does not fault,
and outputs nothing where it does. -/
def Obligations.OutFrame : Prop :=
  ∀ a s t, exec (.out a) s = .next t →
    sameMemory s t ∧ t.rb = s.rb ∧ t.inq = s.inq ∧ t.addrMax = s.addrMax ∧
    (∀ v, s.readOperand 0 a = .ok v → sameRecord s t) ∧
    (∀ r, s.readOperand 0 a = .error r → t.outq = s.outq ∧ t.pc = s.pc)

/-- JNZ, JZ and HLT change nothing but `pc`, or nothing but the record where an operand faults. -/
def Obligations.ControlFlowFrame : Prop :=
  (∀ i a b s t, i = Instr.jnz a b ∨ i = Instr.jz a b → exec i s = .next t →
    sameMemory s t ∧ sameElsewhere s t ∧
    (∀ va vb, s.readOperand 0 a = .ok va → s.readOperand 1 b = .ok vb → sameRecord s t) ∧
    (∀ r, s.readOperand 0 a = .error r ∨ s.readOperand 1 b = .error r → t.pc = s.pc)) ∧
  (∀ s t, exec .hlt s = .next t → sameMemory s t ∧ sameElsewhere s t ∧ sameRecord s t)

/-- ARB changes no cell, not `MLEN`, neither channel; it leaves the record where its operand does not fault, and
`rb` where it does. -/
def Obligations.ArbFrame : Prop :=
  ∀ a s t, exec (.arb a) s = .next t →
    sameMemory s t ∧ t.inq = s.inq ∧ t.outq = s.outq ∧ t.addrMax = s.addrMax ∧
    (∀ v, s.readOperand 0 a = .ok v → sameRecord s t) ∧
    (∀ r, s.readOperand 0 a = .error r → t.rb = s.rb ∧ t.pc = s.pc)

/-! ### Whole-machine rules -/

/-- Rule R181: nothing but ARB writes `rb`: not another instruction, not a fault, not HLT, not the host's port;
reset sets it to 0. -/
def Obligations.OnlyArbWritesRelativeBase : Prop :=
  (∀ s t, step s = .next t → t.rb ≠ s.rb → ∃ a, Running s ∧ decode s.instrWord = .ok (.arb a) ∧ t.fcause = .none) ∧
  (∀ c s, (∀ image, c ≠ .reset image) → c ≠ .step → (∀ turns, c ≠ .run turns) → (hostAct c s).1.rb = s.rb) ∧
  (∀ s image, (State.load s image).rb = 0)

/-- Rules R160 and R161: `INQ` changes only by a retiring IN, which removes its head; `OUTQ` changes only by a
retiring OUT, which appends its operand's value. -/
def Obligations.ChannelsMoveOnlyByInAndOut : Prop :=
  ∀ s t, step s = .next t →
    (t.inq = s.inq ∨ ∃ dest x, Running s ∧ decode s.instrWord = .ok (.inp dest) ∧ s.inq = x :: t.inq) ∧
    (t.outq = s.outq ∨ ∃ a v, Running s ∧ decode s.instrWord = .ok (.out a) ∧ s.readOperand 0 a = .ok v ∧
      t.outq = s.outq ++ [v])

/-- A starved IN waits: the step reports WaitingInput, changes nothing and the core stays Running; on the first
step after the host has appended words it takes exactly the first of them and stores it (rules R164, R245). -/
def Obligations.StarvedInWaitsUntilFed : Prop :=
  ∀ s dest d, Running s → decode s.instrWord = .ok (.inp dest) → s.writeAddr 0 dest = .ok d → s.inq = [] →
    step s = .next s ∧ s.report = .waitingInput ∧ s.runState = .running ∧
    ∀ x ws, step (hostAct (.appendInput (x :: ws)) s).1 = .next (stored { s with inq := ws } d x (s.pc.toInt + 2))

/-- Words the host appends behind the head change nothing of a step that does not wait: the same step is taken,
with the same report, and the words still stand behind the rest of the queue (rules R160, R213). -/
def Obligations.AppendedInputCommutesWithStep : Prop :=
  ∀ (s : State) (ws : List Word), s.waitsForInput = false →
    (s.feed ws).stepped = s.stepped.feed ws ∧ (s.feed ws).report = s.report

/-- The words output so far have no influence on a step: whatever they are, the same step is taken, with the
same report and the same words output (rules R41, R161). -/
def Obligations.OutputHistoryIsNotRead : Prop :=
  ∀ (s : State) (q : List Word), ({ s with outq := q } : State).stepped = { s.stepped with outq := q ++ s.outputOfStep } ∧
    ({ s with outq := q } : State).report = s.report

/-- Rule R66: decoding is a function of memory and `pc` alone, operand resolution of memory, `pc` and `rb`
(for a given `ADDR_MAX`). -/
def Obligations.DecodeAndResolutionArePure : Prop :=
  ∀ s t : State, s.mem = t.mem → s.pc = t.pc → s.addrMax = t.addrMax →
    decode s.instrWord = decode t.instrWord ∧
    (s.rb = t.rb → ∀ k m, s.readOperand k m = t.readOperand k m ∧ s.writeAddr k m = t.writeAddr k m)

/-- A store is seen by the very next fetch: when ADD stores a word at its own successor, the next step executes
what that word decodes to (rules R64, R241). -/
def Obligations.StoreIsSeenByNextFetch : Prop :=
  ∀ s t a b dest va vb d i, MachineInv s → Running s → decode s.instrWord = .ok (.add a b dest) →
    s.readOperand 0 a = .ok va → s.readOperand 1 b = .ok vb → s.writeAddr 2 dest = .ok d →
    (d : Int) = s.pc.toInt + 4 → decode (wrap64 (va.toInt + vb.toInt)) = .ok i →
    step s = .next t → t.pc.toInt = d ∧ step t = exec i t

/-! ### Reset and the host -/

/-- Rules R232, R233 and R235: RESET, from any state, leaves `rb` 0, the image in memory from address 0 on with
0 in every other cell, and the fault record clear; it is accepted whenever the image fits. -/
def Obligations.ResetLeaves : Prop :=
  ∀ (s : State) (image : List Word), image.length ≤ (s.addrMax : Nat) + 1 →
    ∃ t, hostAct (.reset image) s = (t, .done) ∧ t.rb = 0 ∧ (∀ a, t.mem.read a = image.getD a 0) ∧
      t.fcause = .none ∧ t.fval = 0 ∧ t.fpc = 0

/-- What RESET leaves besides: `pc` 0, or −1 for the empty image (the spec's own reading, D22), `MLEN` the
image's length (marked derived), `OUTQ` empty, `INQ` and `ADDR_MAX` untouched, and the core Running, or Halted
for the empty image (rules R231, R234, R236). That an image that does
not fit is refused with no effect is the model's choice (assumption 16). -/
def Obligations.ResetStartsTheCore : Prop :=
  ∀ (s : State) (image : List Word),
    (image.length ≤ (s.addrMax : Nat) + 1 →
      ∃ t, hostAct (.reset image) s = (t, .done) ∧ t.pc.toInt = (if image = [] then -1 else 0) ∧
        t.mlen = image.length ∧ t.outq = [] ∧ t.inq = s.inq ∧ t.addrMax = s.addrMax ∧
        t.runState = (if image = [] then .halted else .running)) ∧
    ((s.addrMax : Nat) + 1 < image.length → hostAct (.reset image) s = (s, .refused))

/-- `State.reset` is what RESET of the empty image leaves, with an empty input queue and the default `ADDR_MAX`
(the choice of image and queue is the model's: assumptions 2 and 4). -/
def Obligations.ResetStateIsEmptyImage : Prop :=
  (∀ s : State, s.inq = [] → s.addrMax = Config.defaultAddrMax → s.load [] = State.reset) ∧
  State.reset.runState = .halted ∧ State.reset.status.fcause = 0

/-- Rule R207: between steps the host reads every cell and register and writes every cell, extending `MLEN`; it
does not write `pc`, `rb` or the record; a POKE is seen by the next fetch; outside `0 .. ADDR_MAX` the port
refuses. -/
def Obligations.HostReadsAllAndWritesCells : Prop :=
  ∀ (s : State) (a : Int) (v : Word), s.mem.wf →
    (s.validAddr a →
      hostAct (.peek a) s = (s, .word (s.mem.read a.toNat)) ∧
      ∃ t, hostAct (.poke a v) s = (t, .done) ∧
        (∀ b, s.validAddr b → (hostAct (.peek b) t).2 = .word (if b = a then v else s.mem.read b.toNat)) ∧
        t.mlen = max s.mlen (a.toNat + 1) ∧ t.pc = s.pc ∧ sameElsewhere s t ∧ sameRecord s t ∧
        (a = s.pc.toInt → t.instrWord = v)) ∧
    (¬ s.validAddr a → hostAct (.peek a) s = (s, .refused) ∧ hostAct (.poke a v) s = (s, .refused)) ∧
    hostAct .status s = (s, .status ⟨s.pc, s.rb, s.mlen, faultCode s.fcause, s.fval, s.fpc, s.runState⟩)

/-- RUN adds no behaviour to STEP: the state it leaves is reached by steps, each after what the host appended before
that turn; it returns only Halted or Faulted, and holds only on a starved IN (rule R125). -/
def Obligations.RunPassesThroughSteps : Prop :=
  ∀ (turns : List (List Word)) (s : State), ∃ k, k ≤ turns.length ∧
    (s.run turns).1 = (turns.take k).foldl (fun t ws => (t.feed ws).stepped) s ∧
    (∀ r, (s.run turns).2 = .returned r → (r = .halted ∧ (s.run turns).1.runState = .halted) ∨
      (r = .faulted ∧ (s.run turns).1.runState = .faulted)) ∧
    ((s.run turns).2 = .holding → (s.run turns).1.waitsForInput = true ∧ k = turns.length) ∧
    ((s.run turns).2 = .stillRunning → k = turns.length)

/-! ### The ALU and the pointer update -/

/-- Rule R140: sum and product are the unique words congruent to the exact result modulo 2^64, and are the exact
result whenever it is a word value. -/
def Obligations.AluWrapsExactResult : Prop :=
  ∀ a b : Word,
    isWordValue (aluAdd a b).toInt ∧ isWordValue (aluMul a b).toInt ∧
    (aluAdd a b).toInt % 2 ^ 64 = (a.toInt + b.toInt) % 2 ^ 64 ∧
    (aluMul a b).toInt % 2 ^ 64 = (a.toInt * b.toInt) % 2 ^ 64 ∧
    (isWordValue (a.toInt + b.toInt) → (aluAdd a b).toInt = a.toInt + b.toInt) ∧
    (isWordValue (a.toInt * b.toInt) → (aluMul a b).toInt = a.toInt * b.toInt)

/-- Rule R141: LT is 1 exactly when `a < b` in the integers, EQ exactly when the words are the same; else 0. -/
def Obligations.CompareIsSigned : Prop :=
  ∀ a b : Word,
    (aluLess a b = 1 ↔ a.toInt < b.toInt) ∧ (aluLess a b = 0 ↔ b.toInt ≤ a.toInt) ∧
    (aluEqual a b = 1 ↔ a = b) ∧ (aluEqual a b = 0 ↔ a ≠ b)

/-- `CommitPc`: an `npc` in `[0, MLEN)` becomes `pc` exactly; any other halts the core without a fault; nothing
else changes (rule R150; that the pointer becomes −1 at this moment is the spec's own decision D8). The bound on
`MLEN` is the invariant's. -/
def Obligations.CommitPcKeepsOrHalts : Prop :=
  ∀ (s : State) (npc : Int), s.mlen ≤ (s.addrMax : Nat) + 1 →
    ∃ p, s.commitPc npc = { s with pc := p } ∧
      (0 ≤ npc → npc < (s.mlen : Int) → p.toInt = npc) ∧
      (npc < 0 ∨ (s.mlen : Int) ≤ npc → p.toInt = -1)

/-! ### The ring -/

/-- Every word core `i` outputs is appended, in order, to the input queue of core `(i + 1) mod N`; that core and
core `i` apart, no core changes, and a core that only receives words changes in nothing else (rules R62, R210,
R211). -/
def Obligations.RingRoutesOutput : Prop :=
  ∀ (cores : List State) (i : Nat) (s : State), cores[i]? = some s →
    (∀ j, j ≠ i → j ≠ (i + 1) % cores.length → (stepCore cores i)[j]? = cores[j]?) ∧
    ((i + 1) % cores.length ≠ i → (stepCore cores i)[i]? = some s.stepped) ∧
    (∀ t, (i + 1) % cores.length ≠ i → cores[(i + 1) % cores.length]? = some t →
      (stepCore cores i)[(i + 1) % cores.length]? = some (t.feed s.outputOfStep)) ∧
    ((i + 1) % cores.length = i → (stepCore cores i)[i]? = some (s.stepped.feed s.outputOfStep))

/-- Steps of two different cores of a ring commute when neither core is starved: the order in which the
coordinator runs them is not observable (rule R213). -/
def Obligations.CoreStepsCommute : Prop :=
  ∀ (cores : List State) (i j : Nat) (s t : State), i ≠ j → cores[i]? = some s → cores[j]? = some t →
    s.waitsForInput = false → t.waitsForInput = false →
    stepCore (stepCore cores i) j = stepCore (stepCore cores j) i

/-! ### The hold of RUN -/

/-- RUN holds on a starved IN for as long as the host appends nothing, changing nothing; when the host appends words
it continues by itself, as a RUN of the fed core does (rules R125, R164). -/
def Obligations.RunContinuesWhenFed : Prop :=
  ∀ (s : State) (n : Nat) (x : Word) (ws : List Word) (turns : List (List Word)), s.waitsForInput = true →
    s.run (List.replicate (n + 1) []) = (s, .holding) ∧
    s.run (List.replicate n [] ++ (x :: ws) :: turns) = (s.feed (x :: ws)).run ([] :: turns)
end

