-- ==== Sys2Proof/Laws/State.lean ====
section
/-! SUPPORT. What each update of the state does to each field, one lemma per field. -/

namespace Sys2Proof.Machine

variable (s : State)

/-! ### memWrite -/

@[simp] theorem State.memWrite_pc (a : Nat) (v : Word) : (s.memWrite a v).pc = s.pc := rfl
@[simp] theorem State.memWrite_rb (a : Nat) (v : Word) : (s.memWrite a v).rb = s.rb := rfl
@[simp] theorem State.memWrite_mem (a : Nat) (v : Word) : (s.memWrite a v).mem = s.mem.write a v := rfl
@[simp] theorem State.memWrite_mlen (a : Nat) (v : Word) : (s.memWrite a v).mlen = if s.mlen ≤ a then a + 1 else s.mlen := rfl
@[simp] theorem State.memWrite_fcause (a : Nat) (v : Word) : (s.memWrite a v).fcause = s.fcause := rfl
@[simp] theorem State.memWrite_fval (a : Nat) (v : Word) : (s.memWrite a v).fval = s.fval := rfl
@[simp] theorem State.memWrite_fpc (a : Nat) (v : Word) : (s.memWrite a v).fpc = s.fpc := rfl
@[simp] theorem State.memWrite_inq (a : Nat) (v : Word) : (s.memWrite a v).inq = s.inq := rfl
@[simp] theorem State.memWrite_outq (a : Nat) (v : Word) : (s.memWrite a v).outq = s.outq := rfl
@[simp] theorem State.memWrite_addrMax (a : Nat) (v : Word) : (s.memWrite a v).addrMax = s.addrMax := rfl

/-! ### raise -/

@[simp] theorem State.raise_pc (r : Raise) : (s.raise r).pc = s.pc := rfl
@[simp] theorem State.raise_rb (r : Raise) : (s.raise r).rb = s.rb := rfl
@[simp] theorem State.raise_mem (r : Raise) : (s.raise r).mem = s.mem := rfl
@[simp] theorem State.raise_mlen (r : Raise) : (s.raise r).mlen = s.mlen := rfl
@[simp] theorem State.raise_fcause (r : Raise) : (s.raise r).fcause = r.cause := rfl
@[simp] theorem State.raise_fval (r : Raise) : (s.raise r).fval = r.info := rfl
@[simp] theorem State.raise_fpc (r : Raise) : (s.raise r).fpc = s.pc := rfl
@[simp] theorem State.raise_inq (r : Raise) : (s.raise r).inq = s.inq := rfl
@[simp] theorem State.raise_outq (r : Raise) : (s.raise r).outq = s.outq := rfl
@[simp] theorem State.raise_addrMax (r : Raise) : (s.raise r).addrMax = s.addrMax := rfl

/-! ### outPut -/

@[simp] theorem State.outPut_pc (v : Word) : (s.outPut v).pc = s.pc := rfl
@[simp] theorem State.outPut_rb (v : Word) : (s.outPut v).rb = s.rb := rfl
@[simp] theorem State.outPut_mem (v : Word) : (s.outPut v).mem = s.mem := rfl
@[simp] theorem State.outPut_mlen (v : Word) : (s.outPut v).mlen = s.mlen := rfl
@[simp] theorem State.outPut_fcause (v : Word) : (s.outPut v).fcause = s.fcause := rfl
@[simp] theorem State.outPut_fval (v : Word) : (s.outPut v).fval = s.fval := rfl
@[simp] theorem State.outPut_fpc (v : Word) : (s.outPut v).fpc = s.fpc := rfl
@[simp] theorem State.outPut_inq (v : Word) : (s.outPut v).inq = s.inq := rfl
@[simp] theorem State.outPut_outq (v : Word) : (s.outPut v).outq = s.outq ++ [v] := rfl
@[simp] theorem State.outPut_addrMax (v : Word) : (s.outPut v).addrMax = s.addrMax := rfl

/-! ### setRb -/

@[simp] theorem State.setRb_pc (v : Word) : (s.setRb v).pc = s.pc := rfl
@[simp] theorem State.setRb_rb (v : Word) : (s.setRb v).rb = v := rfl
@[simp] theorem State.setRb_mem (v : Word) : (s.setRb v).mem = s.mem := rfl
@[simp] theorem State.setRb_mlen (v : Word) : (s.setRb v).mlen = s.mlen := rfl
@[simp] theorem State.setRb_fcause (v : Word) : (s.setRb v).fcause = s.fcause := rfl
@[simp] theorem State.setRb_fval (v : Word) : (s.setRb v).fval = s.fval := rfl
@[simp] theorem State.setRb_fpc (v : Word) : (s.setRb v).fpc = s.fpc := rfl
@[simp] theorem State.setRb_inq (v : Word) : (s.setRb v).inq = s.inq := rfl
@[simp] theorem State.setRb_outq (v : Word) : (s.setRb v).outq = s.outq := rfl
@[simp] theorem State.setRb_addrMax (v : Word) : (s.setRb v).addrMax = s.addrMax := rfl

/-! ### feed -/

@[simp] theorem State.feed_pc (ws : List Word) : (s.feed ws).pc = s.pc := rfl
@[simp] theorem State.feed_rb (ws : List Word) : (s.feed ws).rb = s.rb := rfl
@[simp] theorem State.feed_mem (ws : List Word) : (s.feed ws).mem = s.mem := rfl
@[simp] theorem State.feed_mlen (ws : List Word) : (s.feed ws).mlen = s.mlen := rfl
@[simp] theorem State.feed_fcause (ws : List Word) : (s.feed ws).fcause = s.fcause := rfl
@[simp] theorem State.feed_fval (ws : List Word) : (s.feed ws).fval = s.fval := rfl
@[simp] theorem State.feed_fpc (ws : List Word) : (s.feed ws).fpc = s.fpc := rfl
@[simp] theorem State.feed_inq (ws : List Word) : (s.feed ws).inq = s.inq ++ ws := rfl
@[simp] theorem State.feed_outq (ws : List Word) : (s.feed ws).outq = s.outq := rfl
@[simp] theorem State.feed_addrMax (ws : List Word) : (s.feed ws).addrMax = s.addrMax := rfl

/-! ### commitPc -/

theorem State.commitPc_pc (npc : Int) :
    (s.commitPc npc).pc = if 0 ≤ npc ∧ npc < (s.mlen : Int) then wrap64 npc else Config.haltPc := by
  unfold State.commitPc; split <;> rfl

/-- `CommitPc` writes `pc` and nothing else. -/
theorem State.commitPc_eq (npc : Int) : s.commitPc npc = { s with pc := (s.commitPc npc).pc } := by
  unfold State.commitPc; split <;> rfl

@[simp] theorem State.commitPc_rb (npc : Int) : (s.commitPc npc).rb = s.rb := by rw [s.commitPc_eq npc]
@[simp] theorem State.commitPc_mem (npc : Int) : (s.commitPc npc).mem = s.mem := by rw [s.commitPc_eq npc]
@[simp] theorem State.commitPc_mlen (npc : Int) : (s.commitPc npc).mlen = s.mlen := by rw [s.commitPc_eq npc]
@[simp] theorem State.commitPc_fcause (npc : Int) : (s.commitPc npc).fcause = s.fcause := by rw [s.commitPc_eq npc]
@[simp] theorem State.commitPc_fval (npc : Int) : (s.commitPc npc).fval = s.fval := by rw [s.commitPc_eq npc]
@[simp] theorem State.commitPc_fpc (npc : Int) : (s.commitPc npc).fpc = s.fpc := by rw [s.commitPc_eq npc]
@[simp] theorem State.commitPc_inq (npc : Int) : (s.commitPc npc).inq = s.inq := by rw [s.commitPc_eq npc]
@[simp] theorem State.commitPc_outq (npc : Int) : (s.commitPc npc).outq = s.outq := by rw [s.commitPc_eq npc]
@[simp] theorem State.commitPc_addrMax (npc : Int) : (s.commitPc npc).addrMax = s.addrMax := by rw [s.commitPc_eq npc]

/-! ### load -/

@[simp] theorem State.load_pc (image : List Word) : (s.load image).pc = if image.length = 0 then Config.haltPc else Config.entry := rfl
@[simp] theorem State.load_rb (image : List Word) : (s.load image).rb = 0#64 := rfl
@[simp] theorem State.load_mem (image : List Word) : (s.load image).mem = Memory.writeAll [] 0 image := rfl
@[simp] theorem State.load_mlen (image : List Word) : (s.load image).mlen = image.length := rfl
@[simp] theorem State.load_fcause (image : List Word) : (s.load image).fcause = .none := rfl
@[simp] theorem State.load_fval (image : List Word) : (s.load image).fval = 0#64 := rfl
@[simp] theorem State.load_fpc (image : List Word) : (s.load image).fpc = 0#64 := rfl
@[simp] theorem State.load_inq (image : List Word) : (s.load image).inq = s.inq := rfl
@[simp] theorem State.load_outq (image : List Word) : (s.load image).outq = [] := rfl
@[simp] theorem State.load_addrMax (image : List Word) : (s.load image).addrMax = s.addrMax := rfl

/-! ### inTake -/

@[simp] theorem State.inTake_nil (h : s.inq = []) : s.inTake = none := by simp [State.inTake, h]

@[simp] theorem State.inTake_cons {x : Word} {rest : List Word} (h : s.inq = x :: rest) :
    s.inTake = some (x, { s with inq := rest }) := by simp [State.inTake, h]

/-! ### Run state -/

variable {s}

theorem State.runState_faulted (h : s.fcause ≠ .none) : s.runState = .faulted := if_pos h

theorem State.runState_running (f : s.fcause = .none) (h : s.pcInRange) : s.runState = .running := by
  unfold State.runState
  rw [if_neg (not_not_intro f), if_pos h]

theorem State.runState_halted (f : s.fcause = .none) (h : ¬ s.pcInRange) : s.runState = .halted := by
  unfold State.runState
  rw [if_neg (not_not_intro f), if_neg h]

/-! ### Numbers -/

@[simp] theorem haltPc_toInt : Config.haltPc.toInt = -1 := by decide

@[simp] theorem entry_toInt : Config.entry.toInt = 0 := by decide

/-- `wrap64` of an integer in the word range is that integer (rule R11). -/
theorem wrap64_toInt_of_range {z : Int} (lo : wmin ≤ z) (hi : z ≤ wmax) : (wrap64 z).toInt = z := by
  unfold wmin wmax at *
  rw [wrap64, BitVec.toInt_ofInt]
  exact Int.bmod_eq_of_le (by omega) (by omega)

/-- A word is `wrap64` of the integer it is. -/
@[simp] theorem wrap64_toInt (w : Word) : wrap64 w.toInt = w := BitVec.ofInt_toInt

end Sys2Proof.Machine
end

