-- ==== Sys2Proof/Laws/Decode.lean ====
section
/-! SUPPORT. The small lemmas of the decoder. -/

namespace Sys2Proof

/-- A digit stands for mode `m` exactly when it is `m`'s digit (rule R83). -/
theorem modeOfDigit_some {d : Nat} {m : Mode} : modeOfDigit d = some m ↔ d = m.toDigit := by
  unfold modeOfDigit
  split
  · rename_i h; subst h; cases m <;> simp [Mode.toDigit]
  · split
    · rename_i h; subst h; cases m <;> simp [Mode.toDigit]
    · split
      · rename_i h; subst h; cases m <;> simp [Mode.toDigit]
      · cases m <;> simp_all [Mode.toDigit]

/-- The reserved digits are those above 2 (rule R97). -/
theorem modeOfDigit_none {d : Nat} : modeOfDigit d = none ↔ 2 < d := by
  unfold modeOfDigit
  split
  · simp_all
  · split
    · simp_all
    · split
      · simp_all
      · simp only [true_iff]; omega

/-- The digit of a mode is one of the three defined digits. -/
theorem Mode.toDigit_le (m : Mode) : m.toDigit ≤ 2 := by cases m <;> decide

/-- A non-negative word is the natural number its bits are. -/
theorem toNat_of_nonneg {w : Word} (h : 0 ≤ w.toInt) : w.toInt = (w.toNat : Int) := by
  rw [BitVec.toInt_eq_toNat_bmod] at h ⊢
  have := w.isLt
  rw [Int.bmod_def] at h ⊢
  split at h <;> rename_i c <;> simp only [c, if_true, if_false] at h ⊢ <;> omega

/-- What the opcode map says of an opcode's format: the instructions it builds have that opcode, carry the modes
given, and are well formed when their destination is settable (rules R85, R88, R93). -/
inductive FormatFits (op : Nat) : Format → Prop
  | rrw (mk : Mode → Mode → Mode → Instr) : (∀ a b d, (mk a b d).opcode = op) → (∀ a b d, (mk a b d).modes = [a, b, d]) →
      (∀ a b d, (mk a b d).wellFormed = d.settable) → FormatFits op (.rrw mk)
  | rr (mk : Mode → Mode → Instr) : (∀ a b, (mk a b).opcode = op) → (∀ a b, (mk a b).modes = [a, b]) →
      (∀ a b, (mk a b).wellFormed = true) → FormatFits op (.rr mk)
  | w (mk : Mode → Instr) : (∀ d, (mk d).opcode = op) → (∀ d, (mk d).modes = [d]) →
      (∀ d, (mk d).wellFormed = d.settable) → FormatFits op (.w mk)
  | r (mk : Mode → Instr) : (∀ a, (mk a).opcode = op) → (∀ a, (mk a).modes = [a]) →
      (∀ a, (mk a).wellFormed = true) → FormatFits op (.r mk)
  | n (i : Instr) : i.opcode = op → i.modes = [] → i.wellFormed = true → FormatFits op (.n i)

/-- The format of a defined opcode fits it. -/
theorem formatOf_fits {op : Nat} {f : Format} (h : formatOf op = some f) : FormatFits op f := by
  unfold formatOf at h
  repeat' split at h
  all_goals rename_i e
  all_goals
    first
    | (cases h; done)
    | (cases h; subst e; constructor <;> intros <;> rfl)

/-- A defined opcode has a format, an undefined one has none (rule R82). -/
theorem formatOf_none {op : Nat} : formatOf op = none ↔ op ∉ [1, 2, 3, 4, 5, 6, 7, 8, 9, 99] := by
  unfold formatOf
  repeat' split
  all_goals simp_all

/-- The modes of a decoded instruction, slot by slot, are those of the word's digits, and the destination is
settable. -/
theorem decodeModes_ok {w : Word} {n op : Nat} {f : Format} {i : Instr} (hf : FormatFits op f)
    (h : decodeModes w n f = .ok i) :
    i.opcode = op ∧ i.wellFormed = true ∧ ∀ k m, i.modes[k]? = some m → digit n (k + 2) = m.toDigit := by
  cases hf with
  | rrw mk ho hm hw =>
    simp only [decodeModes] at h
    split at h
    · rename_i a b d ha hb hd
      split at h
      · rename_i hs
        cases h
        refine ⟨ho a b d, by rw [hw, hs], fun k m e => ?_⟩
        rw [hm] at e
        match k, e with
        | 0, e => cases e; exact modeOfDigit_some.mp ha
        | 1, e => cases e; exact modeOfDigit_some.mp hb
        | 2, e => cases e; exact modeOfDigit_some.mp hd
      · cases h
    · cases h
  | rr mk ho hm hw =>
    simp only [decodeModes] at h
    split at h
    · rename_i a b ha hb
      cases h
      refine ⟨ho a b, hw a b, fun k m e => ?_⟩
      rw [hm] at e
      match k, e with
      | 0, e => cases e; exact modeOfDigit_some.mp ha
      | 1, e => cases e; exact modeOfDigit_some.mp hb
    · cases h
  | w mk ho hm hw =>
    simp only [decodeModes] at h
    split at h
    · rename_i d hd
      split at h
      · rename_i hs
        cases h
        refine ⟨ho d, by rw [hw, hs], fun k m e => ?_⟩
        rw [hm] at e
        match k, e with
        | 0, e => cases e; exact modeOfDigit_some.mp hd
      · cases h
    · cases h
  | r mk ho hm hw =>
    simp only [decodeModes] at h
    split at h
    · rename_i a ha
      cases h
      refine ⟨ho a, hw a, fun k m e => ?_⟩
      rw [hm] at e
      match k, e with
      | 0, e => cases e; exact modeOfDigit_some.mp ha
    · cases h
  | n j ho hm hw =>
    simp only [decodeModes] at h
    cases h
    exact ⟨ho, hw, fun k m e => by rw [hm] at e; cases e⟩

/-- The decoder gives well-formed instructions only (rules R88, R98). -/
theorem decode_wellFormed {w : Word} {i : Instr} (h : decode w = .ok i) : i.wellFormed = true := by
  unfold decode at h
  split at h
  · cases h
  · split at h
    · cases h
    · split at h
      · cases h
      · rename_i hf _
        exact (decodeModes_ok (formatOf_fits hf) h).2.1

end Sys2Proof
end

