-- ==== Sys2Proof/Laws/Operands.lean ====
section
/-! SUPPORT. What the operand resolver answers: one lemma per operation saying when it gives a value or an
address, and which fault it raises otherwise. -/

namespace Sys2Proof.Machine

/-- The InvalidAddress fault of slot `k` (rule R190). -/
def invalidAt (k : Fin 3) : Raise := ⟨.invalidAddress, wrap64 ((k : Nat) : Int)⟩

theorem State.memRead_ok {s : State} {k : Fin 3} {addr : Int} (h : s.validAddr addr) :
    s.memRead k addr = .ok (s.mem.read addr.toNat) := if_pos h

theorem State.memRead_invalid {s : State} {k : Fin 3} {addr : Int} (h : ¬ s.validAddr addr) :
    s.memRead k addr = .error (invalidAt k) := if_neg h

/-- The only fault a memory read raises is InvalidAddress of its slot (rule R58). -/
theorem State.memRead_error {s : State} {k : Fin 3} {addr : Int} {r : Raise} (h : s.memRead k addr = .error r) :
    r = invalidAt k := by
  by_cases v : s.validAddr addr
  · rw [State.memRead_ok v] at h; cases h
  · rw [State.memRead_invalid v] at h; cases h; rfl

/-- The only fault resolving an R slot raises is InvalidAddress of that slot (rules R117, R197). -/
theorem State.readOperand_error {s : State} {k : Fin 3} {m : Mode} {r : Raise} (h : s.readOperand k m = .error r) :
    r = invalidAt k := by
  unfold State.readOperand at h
  split at h
  · rename_i e
    cases h
    exact State.memRead_error e
  · split at h
    · cases h
    · exact State.memRead_error h

/-- A mode is settable when it is not immediate (rule R88). -/
theorem settable_iff {m : Mode} : m.settable = true ↔ m ≠ .immediate := by cases m <;> simp [Mode.settable]

theorem State.checkDest_ok {s : State} {m : Mode} (h : m.settable = true) : s.checkDest m = .ok () := if_pos h

theorem State.checkDest_immediate {s : State} {m : Mode} (h : ¬ m.settable = true) :
    s.checkDest m = .error ⟨.unsupportedWrite, s.instrWord⟩ := if_neg h

/-- The address of a W slot is a valid address (rule R118). -/
theorem State.writeAddr_valid {s : State} {k : Fin 3} {m : Mode} {d : Nat} (h : s.writeAddr k m = .ok d) :
    d ≤ (s.addrMax : Nat) := by
  unfold State.writeAddr at h
  split at h
  · cases h
  · split at h
    · cases h
    · split at h
      · rename_i v
        cases h
        obtain ⟨lo, hi⟩ := v
        omega
      · cases h

/-- The only fault resolving a settable W slot raises is InvalidAddress of that slot (rules R118, R197). -/
theorem State.writeAddr_error {s : State} {k : Fin 3} {m : Mode} {r : Raise} (hm : m.settable = true)
    (h : s.writeAddr k m = .error r) : r = invalidAt k := by
  unfold State.writeAddr at h
  split at h
  · rename_i e
    cases h
    exact State.memRead_error e
  · split at h
    · rename_i e
      cases m <;> simp_all [State.addrOf, Mode.settable]
    · split at h
      · cases h
      · cases h; rfl

end Sys2Proof.Machine
end

