-- ==== Sys2Proof/Laws/Exec.lean ====
section
/-! SUPPORT. Everything the execution of an instruction can do, said once: it always answers a next state, and
that state is a fault entry, the unchanged state of a starved IN, or one effect followed by `CommitPc` (rules
R122, R123). -/

namespace Sys2Proof.Machine

/-- An instruction of format RRW and its ALU function (rules R85, R140, R141). -/
inductive IsRRW : Instr → (Word → Word → Word) → Mode → Mode → Mode → Prop
  | add (a b dest : Mode) : IsRRW (.add a b dest) aluAdd a b dest
  | mul (a b dest : Mode) : IsRRW (.mul a b dest) aluMul a b dest
  | lt (a b dest : Mode) : IsRRW (.lt a b dest) aluLess a b dest
  | eq (a b dest : Mode) : IsRRW (.eq a b dest) aluEqual a b dest

/-- A conditional jump and the test it makes (rules R151, R152). -/
inductive IsJump : Instr → (Word → Bool) → Mode → Mode → Prop
  | jnz (a b : Mode) : IsJump (.jnz a b) isNonzero a b
  | jz (a b : Mode) : IsJump (.jz a b) (fun v => !isNonzero v) a b

/-- The faults execution can raise: InvalidAddress of a slot, or, for a term the decoder never gives,
UnsupportedWrite. -/
inductive ExecFault (i : Instr) (s : State) : Raise → Prop
  | address (k : Fin 3) : ExecFault i s (invalidAt k)
  | destination : ¬ i.wellFormed = true → ExecFault i s ⟨.unsupportedWrite, s.instrWord⟩

/-- The outcomes of executing `i` in state `s`. -/
inductive ExecOutcome (i : Instr) (s : State) : State → Prop
  | faulted (r : Raise) : ExecFault i s r → ExecOutcome i s (s.raise r)
  | waited (dest : Mode) (d : Nat) : i = .inp dest → dest.settable = true → s.writeAddr 0 dest = .ok d → s.inq = [] →
      ExecOutcome i s s
  | stored (f : Word → Word → Word) (a b dest : Mode) (va vb : Word) (d : Nat) : IsRRW i f a b dest →
      s.readOperand 0 a = .ok va → s.readOperand 1 b = .ok vb → s.writeAddr 2 dest = .ok d →
      ExecOutcome i s ((s.memWrite d (f va vb)).commitPc (s.pc.toInt + 4))
  | took (dest : Mode) (d : Nat) (x : Word) (rest : List Word) : i = .inp dest → dest.settable = true →
      s.writeAddr 0 dest = .ok d → s.inq = x :: rest →
      ExecOutcome i s ((State.memWrite { s with inq := rest } d x).commitPc (s.pc.toInt + 2))
  | output (a : Mode) (v : Word) : i = .out a → s.readOperand 0 a = .ok v →
      ExecOutcome i s ((s.outPut v).commitPc (s.pc.toInt + 2))
  | jumped (p : Word → Bool) (a b : Mode) (va vb : Word) : IsJump i p a b → s.readOperand 0 a = .ok va →
      s.readOperand 1 b = .ok vb → ExecOutcome i s (s.commitPc (if p va then vb.toInt else s.pc.toInt + 3))
  | adjusted (a : Mode) (v : Word) : i = .arb a → s.readOperand 0 a = .ok v →
      ExecOutcome i s ((s.setRb (wrap64 (s.rb.toInt + v.toInt))).commitPc (s.pc.toInt + 2))
  | stopped : i = .hlt → ExecOutcome i s (s.commitPc (-1))

/-- A resolution that gave a value goes on with it. -/
@[simp] theorem resolved_ok {α : Type} (s : State) (v : α) (k : α → Result) : resolved s (.ok v) k = k v := rfl

/-- A resolution that raised takes the fault. -/
@[simp] theorem resolved_error {α : Type} (s : State) (r : Raise) (k : α → Result) :
    resolved s (.error r) k = .next (s.raise r) := rfl

/-- A resolution followed by a continuation answers a next state, with the property both branches give. -/
theorem resolved_next {α : Type} {s : State} {x : Except Raise α} {k : α → Result} {P : State → Prop}
    (ok : ∀ v, x = .ok v → ∃ t, k v = .next t ∧ P t) (error : ∀ r, x = .error r → P (s.raise r)) :
    ∃ t, resolved s x k = .next t ∧ P t := by
  cases x with
  | ok v => exact ok v rfl
  | error r => exact ⟨_, rfl, error r rfl⟩

theorem execRRW_cases {i : Instr} {f : Word → Word → Word} {a b dest : Mode} (h : IsRRW i f a b dest) (s : State) :
    ∃ t, execRRW f a b dest s = .next t ∧ ExecOutcome i s t := by
  have wf : i.wellFormed = dest.settable := by cases h <;> rfl
  refine resolved_next (fun _ hc => resolved_next (fun va ha => resolved_next (fun vb hb => resolved_next
    (fun d hd => ⟨_, rfl, .stored f a b dest va vb d h ha hb hd⟩) ?_) ?_) ?_) ?_
  · intro r e
    have hs : dest.settable = true := by
      by_contra c
      rw [State.checkDest_immediate c] at hc
      cases hc
    rw [State.writeAddr_error hs e]
    exact .faulted _ (.address 2)
  · intro r e
    rw [State.readOperand_error e]
    exact .faulted _ (.address 1)
  · intro r e
    rw [State.readOperand_error e]
    exact .faulted _ (.address 0)
  · intro r e
    by_cases c : dest.settable = true
    · rw [State.checkDest_ok c] at e
      cases e
    · rw [State.checkDest_immediate c] at e
      cases e
      exact .faulted _ (.destination (by rwa [wf]))

theorem execJump_cases {i : Instr} {p : Word → Bool} {a b : Mode} (h : IsJump i p a b) (s : State) :
    ∃ t, execJump p a b s = .next t ∧ ExecOutcome i s t := by
  refine resolved_next (fun va ha => resolved_next (fun vb hb => ⟨_, rfl, .jumped p a b va vb h ha hb⟩) ?_) ?_
  · intro r e
    rw [State.readOperand_error e]
    exact .faulted _ (.address 1)
  · intro r e
    rw [State.readOperand_error e]
    exact .faulted _ (.address 0)

theorem execIn_cases (dest : Mode) (s : State) :
    ∃ t, execIn dest s = .next t ∧ ExecOutcome (.inp dest) s t := by
  refine resolved_next (fun _ hc => ?_) ?_
  · have hs : dest.settable = true := by
      by_contra c
      rw [State.checkDest_immediate c] at hc
      cases hc
    refine resolved_next (fun d hd => ?_) ?_
    · cases hq : s.inq with
      | nil =>
        rw [State.inTake_nil s hq]
        exact ⟨s, rfl, .waited dest d rfl hs hd hq⟩
      | cons x rest =>
        rw [State.inTake_cons s hq]
        exact ⟨_, rfl, .took dest d x rest rfl hs hd hq⟩
    · intro r e
      rw [State.writeAddr_error hs e]
      exact .faulted _ (.address 0)
  · intro r e
    by_cases c : dest.settable = true
    · rw [State.checkDest_ok c] at e
      cases e
    · rw [State.checkDest_immediate c] at e
      cases e
      exact .faulted _ (.destination c)

theorem execOut_cases (a : Mode) (s : State) : ∃ t, execOut a s = .next t ∧ ExecOutcome (.out a) s t := by
  refine resolved_next (fun v h => ⟨_, rfl, .output a v rfl h⟩) ?_
  intro r e
  rw [State.readOperand_error e]
  exact .faulted _ (.address 0)

theorem execArb_cases (a : Mode) (s : State) : ∃ t, execArb a s = .next t ∧ ExecOutcome (.arb a) s t := by
  refine resolved_next (fun v h => ⟨_, rfl, .adjusted a v rfl h⟩) ?_
  intro r e
  rw [State.readOperand_error e]
  exact .faulted _ (.address 0)

/-- Executing an instruction always answers a next state, one of the outcomes above. -/
theorem exec_cases (i : Instr) (s : State) : ∃ t, exec i s = .next t ∧ ExecOutcome i s t := by
  cases i with
  | add a b dest => exact execRRW_cases (.add a b dest) s
  | mul a b dest => exact execRRW_cases (.mul a b dest) s
  | inp dest => exact execIn_cases dest s
  | out a => exact execOut_cases a s
  | jnz a b => exact execJump_cases (.jnz a b) s
  | jz a b => exact execJump_cases (.jz a b) s
  | lt a b dest => exact execRRW_cases (.lt a b dest) s
  | eq a b dest => exact execRRW_cases (.eq a b dest) s
  | arb a => exact execArb_cases a s
  | hlt => exact ⟨_, rfl, .stopped rfl⟩

/-- The outcome of an execution that answered `t`. -/
theorem exec_outcome {i : Instr} {s t : State} (h : exec i s = .next t) : ExecOutcome i s t := by
  obtain ⟨u, hu, ho⟩ := exec_cases i s
  rw [h] at hu
  cases hu
  exact ho

end Sys2Proof.Machine
end

