-- ==== Sys2Proof/Laws/Step.lean ====
section
/-! SUPPORT. Everything one step can do, said once (rule R111). -/

namespace Sys2Proof.Machine

/-- The outcomes of a step from `s`. -/
inductive StepOutcome (s : State) : State → Prop
  | terminal : (s.isFaulted ∨ s.pc = Config.haltPc) → StepOutcome s s
  | lineThree : ¬ s.isFaulted → ¬ s.pcInRange → s.pc ≠ Config.haltPc → StepOutcome s { s with pc := Config.haltPc }
  | decodeFault (e : DecodeError) : ¬ s.isFaulted → s.pcInRange → decode s.instrWord = .error e →
      StepOutcome s (s.raise (raiseOfDecode e))
  | executed (i : Instr) (t : State) : ¬ s.isFaulted → s.pcInRange → decode s.instrWord = .ok i →
      exec i s = .next t → ExecOutcome i s t → StepOutcome s t

/-- A `pc` in range is not the sentinel. -/
theorem State.pc_ne_halt {s : State} (h : s.pcInRange) : s.pc ≠ Config.haltPc := by
  intro e
  have := h.1
  rw [e, haltPc_toInt] at this
  omega

/-- In a terminal state a step does nothing (rule R124). -/
theorem step_terminal {s : State} (h : s.isFaulted ∨ s.pc = Config.haltPc) : step s = .next s := by
  unfold step cycle
  by_cases f : s.isFaulted
  · rw [if_pos f]
  · rw [if_neg f, if_pos (h.resolve_left f)]

/-- A Running core whose word does not decode takes that fault. -/
theorem step_decodeFault {s : State} {e : DecodeError} (f : ¬ s.isFaulted) (r : s.pcInRange)
    (h : decode s.instrWord = .error e) : step s = .next (s.raise (raiseOfDecode e)) := by
  unfold step cycle
  rw [if_neg f, if_neg (State.pc_ne_halt r), if_neg (not_not_intro r), h]

/-- A Running core executes the instruction its word decodes to. -/
theorem step_decoded {s : State} {i : Instr} (f : ¬ s.isFaulted) (r : s.pcInRange)
    (h : decode s.instrWord = .ok i) : step s = exec i s := by
  unfold step cycle
  rw [if_neg f, if_neg (State.pc_ne_halt r), if_neg (not_not_intro r), h]

/-- A step always answers a next state, one of the outcomes above. -/
theorem step_cases (s : State) : ∃ t, step s = .next t ∧ StepOutcome s t := by
  by_cases f : s.isFaulted
  · exact ⟨s, step_terminal (.inl f), .terminal (.inl f)⟩
  by_cases p : s.pc = Config.haltPc
  · exact ⟨s, step_terminal (.inr p), .terminal (.inr p)⟩
  by_cases r : s.pcInRange
  · cases h : decode s.instrWord with
    | error e => exact ⟨_, step_decodeFault f r h, .decodeFault e f r h⟩
    | ok i =>
      obtain ⟨t, ht, ho⟩ := exec_cases i s
      exact ⟨t, (step_decoded f r h).trans ht, .executed i t f r h ht ho⟩
  · refine ⟨_, ?_, .lineThree f r p⟩
    unfold step cycle
    rw [if_neg f, if_neg p, if_pos r]

/-- The outcome of a step that answered `t`. -/
theorem step_outcome {s t : State} (h : step s = .next t) : StepOutcome s t := by
  obtain ⟨u, hu, ho⟩ := step_cases s
  rw [h] at hu
  cases hu
  exact ho

/-- `stepped` is the state the step answers. -/
theorem step_eq_stepped (s : State) : step s = .next s.stepped := by
  obtain ⟨t, ht, -⟩ := step_cases s
  rw [State.stepped, ht]

end Sys2Proof.Machine
end

