-- ==== Sys2Proof/Laws/HostPort.lean ====
section
/-! SUPPORT. What `RUN` can do, said once: its loop takes steps and lets the host append words, so whatever both keep
it keeps (rule R125). -/

namespace Sys2Proof.Machine

/-- Appending no words changes nothing. -/
@[simp] theorem State.feed_nil (s : State) : s.feed [] = s := by simp [State.feed]

/-- Followed for no turn, the loop stays where it is. -/
@[simp] theorem State.runLoop_nil (holding : Bool) (s : State) :
    State.runLoop holding [] s = (s, if holding then .holding else .stillRunning) := rfl

/-- A turn of a hold with `INQ` still empty is no step. -/
theorem State.runLoop_hold {s : State} {ws : List Word} (turns : List (List Word))
    (h : (s.feed ws).inAvail = false) :
    State.runLoop true (ws :: turns) s = State.runLoop true turns (s.feed ws) := by
  simp [State.runLoop, h]

/-- A hold that finds a word continues as the loop does. -/
theorem State.runLoop_resume {s : State} {ws : List Word} (turns : List (List Word))
    (h : (s.feed ws).inAvail = true) :
    State.runLoop true (ws :: turns) s = State.runLoop false (ws :: turns) s := by
  simp [State.runLoop, h]

/-- Whatever appending words and stepping keep, the loop keeps. -/
theorem State.runLoop_keeps {P : State → Prop} (feed : ∀ s ws, P s → P (s.feed ws)) (step : ∀ s, P s → P s.stepped) :
    ∀ (turns : List (List Word)) (holding : Bool) (s : State), P s → P (State.runLoop holding turns s).1
  | [], _, _, h => h
  | ws :: turns, holding, s, h => by
    have ht := feed s ws h
    have hs := step _ ht
    unfold State.runLoop
    by_cases c : holding = true ∧ (s.feed ws).inAvail = false
    · simpa only [if_pos c] using State.runLoop_keeps feed step turns true _ ht
    · simp only [if_neg c]
      split
      · exact State.runLoop_keeps feed step turns false _ hs
      · exact State.runLoop_keeps feed step turns true _ hs
      · exact hs
      · exact hs

/-- Whatever appending words and stepping keep, `RUN` keeps. -/
theorem State.run_keeps {P : State → Prop} (feed : ∀ s ws, P s → P (s.feed ws)) (step : ∀ s, P s → P s.stepped)
    (s : State) (turns : List (List Word)) (h : P s) : P (s.run turns).1 :=
  State.runLoop_keeps feed step turns false s h

end Sys2Proof.Machine
end

