-- ==== Sys2Proof/Laws/Memory.lean ====
section
/-! SUPPORT. The laws of the memory array: read after write, the canonical form kept, and equal contents are
equal data. -/

namespace Sys2Proof.Machine

@[simp] theorem Memory.read_nil (a : Nat) : Memory.read [] a = 0#64 := rfl

@[simp] theorem Memory.read_cons (c : Cell) (m : Memory) (a : Nat) :
    Memory.read (c :: m) a = if a = c.1 then c.2 else Memory.read m a := rfl

/-- An address with no entry reads as 0. -/
theorem Memory.read_eq_zero {m : Memory} {a : Nat} (h : ∀ c ∈ m, c.1 ≠ a) : Memory.read m a = 0#64 := by
  induction m with
  | nil => rfl
  | cons c m ih =>
    have hc : a ≠ c.1 := fun e => h c (by simp) e.symm
    rw [Memory.read_cons, if_neg hc]
    exact ih fun d hd => h d (by simp [hd])

/-- A write leaves every other cell alone. -/
theorem Memory.read_write_other (m : Memory) {a b : Nat} (v : Word) (h : b ≠ a) :
    (m.write a v).read b = m.read b := by
  induction m with
  | nil => by_cases hv : v = 0#64 <;> simp [Memory.write, hv, h]
  | cons c m ih =>
    obtain ⟨k, u⟩ := c
    by_cases h1 : a < k
    · by_cases hv : v = 0#64 <;> simp [Memory.write, h1, hv, h]
    · by_cases h2 : a = k
      · subst h2
        by_cases hv : v = 0#64 <;> simp [Memory.write, hv, h]
      · simp [Memory.write, h1, h2, ih]

/-- In a canonical memory every entry after the first lies above it. -/
theorem Memory.wf_cons {c : Cell} {m : Memory} :
    Memory.wf (c :: m) ↔ (∀ d ∈ m, c.1 < d.1) ∧ c.2 ≠ 0#64 ∧ Memory.wf m := by
  simp only [Memory.wf, List.pairwise_cons, List.mem_cons, forall_eq_or_imp]
  tauto

/-- Where the entries of a memory after a write come from. -/
theorem Memory.mem_write {m : Memory} {a : Nat} {v : Word} {c : Cell} (h : c ∈ m.write a v) :
    c ∈ m ∨ (c = (a, v) ∧ v ≠ 0#64) := by
  induction m with
  | nil => by_cases hv : v = 0#64 <;> simp_all [Memory.write]
  | cons d m ih =>
    obtain ⟨k, u⟩ := d
    by_cases h1 : a < k
    · by_cases hv : v = 0#64 <;> simp_all [Memory.write]
      tauto
    · by_cases h2 : a = k
      · by_cases hv : v = 0#64 <;> simp_all [Memory.write]
        tauto
      · simp only [Memory.write, h1, h2, if_false, List.mem_cons] at h
        rcases h with h | h
        · exact .inl (by simp [h])
        · rcases ih h with h | h
          · exact .inl (by simp [h])
          · exact .inr h

/-- A write keeps the canonical form. -/
theorem Memory.write_wf {m : Memory} (a : Nat) (v : Word) (h : m.wf) : (m.write a v).wf := by
  induction m with
  | nil => by_cases hv : v = 0#64 <;> simp [Memory.write, hv, Memory.wf]
  | cons c m ih =>
    obtain ⟨k, u⟩ := c
    obtain ⟨above, nz, tail⟩ := Memory.wf_cons.mp h
    simp only at above nz
    by_cases h1 : a < k
    · by_cases hv : v = 0#64
      · simpa [Memory.write, h1, hv] using h
      · simp only [Memory.write, h1, hv, if_true, if_false]
        refine Memory.wf_cons.mpr ⟨fun d hd => ?_, hv, h⟩
        rcases List.mem_cons.mp hd with rfl | hd
        · exact h1
        · exact lt_trans h1 (above d hd)
    · by_cases h2 : a = k
      · subst h2
        by_cases hv : v = 0#64
        · simpa [Memory.write, hv] using tail
        · simp only [Memory.write, lt_irrefl, hv, if_true, if_false]
          exact Memory.wf_cons.mpr ⟨above, hv, tail⟩
      · simp only [Memory.write, h1, h2, if_false]
        refine Memory.wf_cons.mpr ⟨fun d hd => ?_, nz, ih tail⟩
        rcases Memory.mem_write hd with hd | ⟨rfl, -⟩
        · exact above d hd
        · show k < a
          omega

/-- A read after a write to the same cell gives the value written. -/
theorem Memory.read_write_same {m : Memory} (a : Nat) (v : Word) (h : m.wf) : (m.write a v).read a = v := by
  induction m with
  | nil => by_cases hv : v = 0#64 <;> simp [Memory.write, hv]
  | cons c m ih =>
    obtain ⟨k, u⟩ := c
    obtain ⟨above, -, tail⟩ := Memory.wf_cons.mp h
    simp only at above
    by_cases h1 : a < k
    · by_cases hv : v = 0#64
      · subst hv
        simp only [Memory.write, h1, if_true]
        refine Memory.read_eq_zero fun d hd => ?_
        rcases List.mem_cons.mp hd with rfl | hd
        · exact (ne_of_lt h1).symm
        · have := above d hd
          omega
      · simp [Memory.write, h1, hv]
    · by_cases h2 : a = k
      · subst h2
        by_cases hv : v = 0#64
        · subst hv
          simp only [Memory.write, lt_irrefl, if_true, if_false]
          exact Memory.read_eq_zero fun d hd => (ne_of_lt (above d hd)).symm
        · simp [Memory.write, hv]
      · simp [Memory.write, h1, h2, ih tail]

/-- What every cell holds after a write. -/
theorem Memory.read_write {m : Memory} (a b : Nat) (v : Word) (h : m.wf) :
    (m.write a v).read b = if b = a then v else m.read b := by
  by_cases e : b = a
  · subst e; simp [Memory.read_write_same b v h]
  · simp [e, Memory.read_write_other m v e]

/-- A cell that reads as non-zero has an entry. -/
theorem Memory.mem_of_read_ne_zero {m : Memory} {a : Nat} (h : m.read a ≠ 0#64) : (a, m.read a) ∈ m := by
  induction m with
  | nil => simp at h
  | cons c m ih =>
    by_cases e : a = c.1
    · subst e; simp
    · simp only [Memory.read_cons, e, if_false] at h ⊢
      exact List.mem_cons_of_mem _ (ih h)

/-- Writing an image keeps the canonical form. -/
theorem Memory.writeAll_wf (ws : List Word) : ∀ {m : Memory} (a : Nat), m.wf → (Memory.writeAll m a ws).wf := by
  induction ws with
  | nil => exact fun _ h => h
  | cons w ws ih => exact fun a h => ih (a + 1) (Memory.write_wf a w h)

/-- An entry written by an image lies in the image's range, or was there before. -/
theorem Memory.mem_writeAll (ws : List Word) :
    ∀ {m : Memory} {a : Nat} {c : Cell}, c ∈ Memory.writeAll m a ws → c ∈ m ∨ c.1 < a + ws.length := by
  induction ws with
  | nil => exact fun h => .inl h
  | cons w ws ih =>
    intro m a c h
    simp only [List.length_cons]
    rcases ih h with h | h
    · rcases Memory.mem_write h with h | ⟨rfl, -⟩
      · exact .inl h
      · exact .inr (by simp)
    · exact .inr (by omega)

/-- What a cell holds after an image is written from address `a` on. -/
theorem Memory.read_writeAll (ws : List Word) :
    ∀ {m : Memory} (a b : Nat), m.wf →
      (Memory.writeAll m a ws).read b = if a ≤ b ∧ b < a + ws.length then ws.getD (b - a) 0 else m.read b := by
  induction ws with
  | nil =>
    intro m a b _
    have : ¬ (a ≤ b ∧ b < a) := by omega
    simp [Memory.writeAll, this]
  | cons w ws ih =>
    intro m a b h
    rw [Memory.writeAll, ih (a + 1) b (Memory.write_wf a w h), Memory.read_write a b w h, List.length_cons]
    rcases Nat.lt_trichotomy b a with hb | rfl | hb
    · rw [if_neg (by omega), if_neg (by omega), if_neg (by omega)]
    · rw [if_neg (by omega), if_pos rfl, if_pos (by omega)]
      simp
    · by_cases hi : b < a + (ws.length + 1)
      · obtain ⟨k, rfl⟩ : ∃ k, b = a + 1 + k := ⟨b - (a + 1), by omega⟩
        rw [if_pos (by omega), if_pos (by omega), show a + 1 + k - (a + 1) = k by omega,
          show a + 1 + k - a = k + 1 by omega]
        simp
      · rw [if_neg (by omega), if_neg (by omega), if_neg (by omega)]

end Sys2Proof.Machine
end

