-- ==== Sys2Proof/Laws/PerInstr.lean ====
section
/-! SUPPORT. A fact about every instruction as syntax, one lemma per constructor: the canonical word of a
well-formed instruction is a positive number of at most five digits whose last two are the opcode (rules R81,
R82, R106). -/

namespace Sys2Proof.Laws.CanonicalWord

/-- The canonical word of `i`, when `i` is well formed, lies in `1 .. 99999` and ends in the opcode's digits. -/
def Statement (i : Instr) : Prop :=
  i.wellFormed = true →
    0 < (encode i).toInt ∧ (encode i).toInt ≤ 99999 ∧ (encode i).toInt % 100 = (i.opcode : Int)

theorem add (a b dest : Mode) : Statement (.add a b dest) := by
  unfold Statement; cases a <;> cases b <;> cases dest <;> decide

theorem mul (a b dest : Mode) : Statement (.mul a b dest) := by
  unfold Statement; cases a <;> cases b <;> cases dest <;> decide

theorem inp (dest : Mode) : Statement (.inp dest) := by
  unfold Statement; cases dest <;> decide

theorem out (a : Mode) : Statement (.out a) := by
  unfold Statement; cases a <;> decide

theorem jnz (a b : Mode) : Statement (.jnz a b) := by
  unfold Statement; cases a <;> cases b <;> decide

theorem jz (a b : Mode) : Statement (.jz a b) := by
  unfold Statement; cases a <;> cases b <;> decide

theorem lt (a b dest : Mode) : Statement (.lt a b dest) := by
  unfold Statement; cases a <;> cases b <;> cases dest <;> decide

theorem eq (a b dest : Mode) : Statement (.eq a b dest) := by
  unfold Statement; cases a <;> cases b <;> cases dest <;> decide

theorem arb (a : Mode) : Statement (.arb a) := by
  unfold Statement; cases a <;> decide

theorem hlt : Statement .hlt := by
  unfold Statement; decide

end Sys2Proof.Laws.CanonicalWord
end

