-- ==== Sys2Proof/Machine/Assembler.lean ====
section
/-! DEFINITION. The assembly language (30_encoding.md section 6, rules R101 to R103): statements, data and labels,
assembled to the words of an image in two passes, and the text form of a line. -/

namespace Sys2Proof.Machine

/-- A number as an operand or datum writes it: a literal or a label (rules R102, R103). -/
inductive AsmNum where
  | lit (z : Int)
  | label (name : List Char)
  deriving DecidableEq, Repr

/-- An operand: `[n]`, `#n`, and `[rb+n]` or `[rb-n]` (rule R102). -/
inductive AsmOperand where
  | pos (n : AsmNum)
  | imm (n : AsmNum)
  | relPlus (n : AsmNum)
  | relMinus (n : AsmNum)
  deriving DecidableEq, Repr

/-- One item of a program text (rules R102, R103). -/
inductive AsmItem where
  | statement (opcode : Nat) (args : List AsmOperand)
  | data (values : List AsmNum)
  | label (name : List Char)
  deriving DecidableEq, Repr

/-- The opcode a mnemonic, or D0's name for it, stands for (rules R93, R101). -/
def opcodeOfName (name : List Char) : Option Nat :=
  if name = "ADD".toList ∨ name = "Add".toList then some 1
  else if name = "MUL".toList ∨ name = "Multiply".toList then some 2
  else if name = "IN".toList ∨ name = "Input".toList then some 3
  else if name = "OUT".toList ∨ name = "Output".toList then some 4
  else if name = "JNZ".toList ∨ name = "JumpIfTrue".toList then some 5
  else if name = "JZ".toList ∨ name = "JumpIfFalse".toList then some 6
  else if name = "LT".toList ∨ name = "LessThan".toList then some 7
  else if name = "EQ".toList ∨ name = "Equals".toList then some 8
  else if name = "ARB".toList ∨ name = "AdjustRelativeBase".toList then some 9
  else if name = "HLT".toList ∨ name = "Halt".toList then some 99
  else none

/-- The mode an operand's form selects (rule R102). -/
def AsmOperand.mode : AsmOperand → Mode
  | .pos _ => .position
  | .imm _ => .immediate
  | .relPlus _ => .relative
  | .relMinus _ => .relative

/-- The cells an item assembles to (rules R86, R103). -/
def AsmItem.size : AsmItem → Nat
  | .statement _ args => 1 + args.length
  | .data values => values.length
  | .label _ => 0

/-- The address of every label: that of the next cell assembled, the first cell being address 0 (rule R103). -/
def labelTable : List AsmItem → Nat → List (List Char × Nat)
  | [], _ => []
  | .label name :: rest, addr => (name, addr) :: labelTable rest addr
  | item :: rest, addr => labelTable rest (addr + item.size)

/-- The integer a number stands for; none for an undefined label. -/
def AsmNum.value (labels : List (List Char × Nat)) : AsmNum → Option Int
  | .lit z => some z
  | .label name =>
    match labels.lookup name with
    | some a => some a
    | none => none

/-- An integer as a word of the image; one outside the word range is refused (rule R10). -/
def wordOf (z : Int) : Option Word := if wmin ≤ z ∧ z ≤ wmax then some (wrap64 z) else none

/-- The parameter of an operand: `n`, or `−n` for `[rb-n]` (rule R102). -/
def AsmOperand.parameter (labels : List (List Char × Nat)) : AsmOperand → Option Word
  | .pos n => (n.value labels).bind wordOf
  | .imm n => (n.value labels).bind wordOf
  | .relPlus n => (n.value labels).bind wordOf
  | .relMinus n => (n.value labels).bind fun z => wordOf (-z)

/-- The instruction a statement names: as many operands as the opcode's arity, and no `#n` in a W slot
(rules R85, R102). -/
def instrOf (opcode : Nat) (args : List AsmOperand) : Option Instr :=
  let i :=
    match formatOf opcode, args.map AsmOperand.mode with
    | some (.rrw mk), [a, b, dest] => some (mk a b dest)
    | some (.rr mk), [a, b] => some (mk a b)
    | some (.w mk), [dest] => some (mk dest)
    | some (.r mk), [a] => some (mk a)
    | some (.n instr), [] => some instr
    | _, _ => none
  i.bind fun i => if i.wellFormed then some i else none

/-- The words of one item: the canonical instruction word and the parameters, or the data (rules R102, R103,
R106). -/
def AsmItem.words (labels : List (List Char × Nat)) : AsmItem → Option (List Word)
  | .statement opcode args =>
    (instrOf opcode args).bind fun i => (args.mapM (AsmOperand.parameter labels)).map fun ps => encode i :: ps
  | .data values => values.mapM fun n => (n.value labels).bind wordOf
  | .label _ => some []

/-- The image of a program (rule R103). -/
def assemble (items : List AsmItem) : Option (List Word) :=
  (items.mapM (AsmItem.words (labelTable items 0))).map List.flatten

/-- The image text: the words in decimal, joined by commas (rule R103). -/
def imageText (image : List Word) : String := String.intercalate "," (image.map fun w => toString w.toInt)

/-! ### The text of a line -/

/-- A text without its leading and trailing spaces. -/
def trimSpaces (t : List Char) : List Char := ((t.dropWhile (· = ' ')).reverse.dropWhile (· = ' ')).reverse

/-- A run of decimal digits as a number; none where it is empty or holds another character. -/
def parseDigits (t : List Char) : Option Nat :=
  if t ≠ [] ∧ t.all Char.isDigit then some (t.foldl (fun n c => 10 * n + (c.toNat - '0'.toNat)) 0) else none

/-- A name: a letter or underscore, then letters, digits and underscores. -/
def isName (t : List Char) : Bool :=
  match t with
  | [] => false
  | c :: cs => (c.isAlpha || c = '_') && cs.all fun d => d.isAlphanum || d = '_'

/-- A decimal integer with optional sign, or a label (rule R102). -/
def parseNum (t : List Char) : Option AsmNum :=
  match trimSpaces t with
  | '-' :: ds => (parseDigits ds).map fun n => .lit (-(n : Int))
  | '+' :: ds => (parseDigits ds).map fun n => .lit n
  | u => if isName u then some (.label u) else (parseDigits u).map fun n => .lit n

/-- The part of a bracketed operand before its closing bracket. -/
def closeBracket (t : List Char) : Option (List Char) :=
  match t.reverse with
  | ']' :: r => some r.reverse
  | _ => none

/-- An operand (rule R102). -/
def parseOperand (t : List Char) : Option AsmOperand :=
  match trimSpaces t with
  | '#' :: n => (parseNum n).map .imm
  | '[' :: 'r' :: 'b' :: '+' :: n => (closeBracket n).bind fun n => (parseNum n).map .relPlus
  | '[' :: 'r' :: 'b' :: '-' :: n => (closeBracket n).bind fun n => (parseNum n).map .relMinus
  | '[' :: n => (closeBracket n).bind fun n => (parseNum n).map .pos
  | _ => none

/-- The comma-separated parts of a text; none of an empty text (rules R102, R103). -/
def commaParts (t : List Char) : List (List Char) := if trimSpaces t = [] then [] else t.splitOn ','

/-- A statement or a `DATA` item (rules R102, R103). -/
def parseItem (t : List Char) : Option AsmItem :=
  let u := trimSpaces t
  let name := u.takeWhile (· ≠ ' ')
  let rest := u.dropWhile (· ≠ ' ')
  if name = "DATA".toList then ((commaParts rest).mapM parseNum).map .data
  else (opcodeOfName name).bind fun op => ((commaParts rest).mapM parseOperand).map (.statement op)

/-- The items of a line: an optional label definition `name:`, then an optional item (rule R103). -/
def parseLine (t : List Char) : Option (List AsmItem) :=
  let head := trimSpaces (t.takeWhile (· ≠ ':'))
  let labelled := t.any (· = ':')
  let body := if labelled then (t.dropWhile (· ≠ ':')).tail else t
  let tail := if trimSpaces body = [] then some [] else (parseItem body).map ([·])
  if labelled then (if isName head then tail.map (.label head :: ·) else none) else tail

/-- The image of a program text, one line an entry (rules R101 to R103). -/
def assembleText (lines : List String) : Option (List Word) :=
  (lines.mapM fun l => parseLine l.toList).bind fun items => assemble items.flatten

end Sys2Proof.Machine
end

