-- ==== Sys2Proof/Tests/Slice0.lean ====
section
/-! SUPPORT. Tests of one step, of the decoder and of the checks, with results from the spec's worked examples
and vectors (95_test_vectors.md) or worked by hand from the rules; and for every statement with hypotheses a
witness that meets them all. -/

namespace Sys2Proof.Tests

open Sys2Proof Sys2Proof.Machine Sys2Proof.Rules

/-- A core reset with an image, then moved to `pc` with `rb` and an input queue. -/
def testState (image : List Word) (pc : Word := 0) (rb : Word := 0) (inq : List Word := []) : State :=
  { State.reset.load image with pc := pc, rb := rb, inq := inq }

/-- The same on a machine whose `ADDR_MAX` is 7. -/
def smallState (image : List Word) (pc : Word := 0) (rb : Word := 0) (inq : List Word := []) : State :=
  { testState image pc rb inq with addrMax := 7 }

/-! ### The one check of the syntax, for each instruction with a W slot (rule R88) -/

theorem test_add_immediate_dest : (Instr.add .position .position .immediate).wellFormed = false := by decide
theorem test_mul_immediate_dest : (Instr.mul .immediate .relative .immediate).wellFormed = false := by decide
theorem test_inp_immediate_dest : (Instr.inp .immediate).wellFormed = false := by decide
theorem test_lt_immediate_dest : (Instr.lt .position .immediate .immediate).wellFormed = false := by decide
theorem test_eq_immediate_dest : (Instr.eq .relative .position .immediate).wellFormed = false := by decide
theorem test_jump_immediate_target : (Instr.jz .position .immediate).wellFormed = true := by decide

/-! ### Decoding words written out digit by digit: `C B A` modes, two opcode digits (rules R81, R82, R83) -/

/-- `2 1 0 01`: C relative, B immediate, A position, opcode 01. -/
theorem test_decode_add : decode 21001 = .ok (.add .position .immediate .relative) := by decide
/-- `0 2 1 02`. -/
theorem test_decode_mul : decode 2102 = .ok (.mul .immediate .relative .position) := by decide
/-- `9 8 2 03`: digits of unused slots are not examined (rule R99). -/
theorem test_decode_inp : decode 98203 = .ok (.inp .relative) := by decide
/-- `0 0 1 04`. -/
theorem test_decode_out : decode 104 = .ok (.out .immediate) := by decide
/-- `7 2 1 05`: `C` is not examined. -/
theorem test_decode_jnz : decode 72105 = .ok (.jnz .immediate .relative) := by decide
/-- `0 1 0 06`. -/
theorem test_decode_jz : decode 1006 = .ok (.jz .position .immediate) := by decide
/-- `0 1 2 07`. -/
theorem test_decode_lt : decode 1207 = .ok (.lt .relative .immediate .position) := by decide
/-- `2 0 1 08`. -/
theorem test_decode_eq : decode 20108 = .ok (.eq .immediate .position .relative) := by decide
/-- `0 0 2 09`. -/
theorem test_decode_arb : decode 209 = .ok (.arb .relative) := by decide
/-- `9 9 9 99`, the greatest legal word (rule R106). -/
theorem test_decode_hlt : decode 99999 = .ok .hlt := by decide
/-- Opcode 00 is no instruction, nor is 98 (rule R94). -/
theorem test_decode_undefined :
    decode 0 = .error (.unknownOperation 0) ∧ decode 198 = .error (.unknownOperation 98) := by decide
/-- A negative word carries the truncated remainder: −1199 gives −99, −100 gives 0 (rule R95). -/
theorem test_decode_negative :
    decode (-1199) = .error (.unknownOperation (-99)) ∧ decode (-100) = .error (.unknownOperation 0) := by decide
/-- 100099 has six digits; 399 has a reserved digit in no used slot; 301 in slot 0 of ADD (rules R96, R97, R99). -/
theorem test_decode_reserved :
    decode 100099 = .error (.reservedEncoding 100099) ∧ decode 399 = .ok .hlt ∧
    decode 301 = .error (.reservedEncoding 301) := by decide
/-- A reserved digit is found before an immediate destination (rule R113, lines f and g). -/
theorem test_decode_order :
    decode 13001 = .error (.reservedEncoding 13001) ∧ decode 11001 = .error (.unsupportedWrite 11001) := by decide
/-- Only the first cell of a table word decides. -/
theorem test_decode_table_word : decodeTableWord 64 (2 ^ 64 * 5 + 1002) = some (.mul .position .immediate .position) := by
  decide

/-! ### One step of each instruction -/

/-- V-ADD-4: `WMAX + 1` wraps to `WMIN`, and cell 5 beyond the image is allocated. -/
theorem test_add_wraps :
    (testState [1101, 9223372036854775807, 1, 5, 99]).stepped.snapshot =
      [1101, 9223372036854775807, 1, 5, 99, -9223372036854775808] := by decide
/-- Rule R142: `ADD [5], [5], [5]` doubles cell 5. -/
theorem test_add_same_cell : (testState [1, 5, 5, 5, 99, 21]).stepped.mem.read 5 = 42 := by decide
/-- Rule R140's table: `WMIN * (−1)` is `WMIN`, `WMAX * WMAX` is 1. -/
theorem test_mul_wraps :
    (testState [1102, -9223372036854775808, -1, 4, 99]).stepped.mem.read 4 = -9223372036854775808 ∧
    (testState [1102, 9223372036854775807, 9223372036854775807, 4, 99]).stepped.mem.read 4 = 1 := by decide
/-- Rule R143: `1002,4,3,4,33` is `MUL [4], #3, [4]`. -/
theorem test_mul_modes : (testState [1002, 4, 3, 4, 33]).stepped.snapshot = [1002, 4, 3, 4, 99] := by decide
/-- Rule R141: `WMIN < WMAX` is true, and not the other way round. -/
theorem test_lt_signed :
    (testState [1107, -9223372036854775808, 9223372036854775807, 4, 99]).stepped.mem.read 4 = 1 ∧
    (testState [1107, 9223372036854775807, -9223372036854775808, 4, 99]).stepped.mem.read 4 = 0 := by decide
/-- Rule R144: equal operands give 0; rule R145: they give 1. -/
theorem test_lt_eq_equal :
    (testState [1107, -7, -7, 4, 99]).stepped.mem.read 4 = 0 ∧
    (testState [1108, -7, -7, 4, 99]).stepped.mem.read 4 = 1 := by decide
/-- EQ compares the whole word: 2^32 is not 0. -/
theorem test_eq_whole_word : (testState [1108, 4294967296, 0, 4, 99]).stepped.mem.read 4 = 0 := by decide
/-- Rule R151: a negative word is true; a target outside the image halts without a fault. -/
theorem test_jnz_negative_condition :
    (testState [1105, -1, 4, 99, 99]).stepped.pc = 4 ∧ (testState [1105, 1, -5, 99]).stepped.pc = -1 ∧
    (testState [1105, 1, -5, 99]).stepped.fcause = .none := by decide
/-- Rule R151: the target is the value of `b`, here what cell 5 holds; with 0 the pointer advances by 3. -/
theorem test_jnz_target_value :
    (testState [105, 1, 5, 99, 99, 4]).stepped.pc = 4 ∧ (testState [105, 0, 5, 99, 99, 4]).stepped.pc = 3 := by decide
/-- Rule R152: `1006,101,0` at address 12 jumps to 0 while cell 101 holds 0. -/
theorem test_jz_taken : (testState [1106, 0, 3, 99]).stepped.pc = 3 ∧ (testState [1106, 7, 0, 99]).stepped.pc = 3 := by
  decide
/-- Rules R151 and R152: the operand `b` faults even when the jump is not taken. -/
theorem test_jz_not_taken_faults :
    (testState [6, 3, -1, 99]).stepped.fcause = .invalidAddress ∧ (testState [6, 3, -1, 99]).stepped.fval = 1 := by
  decide
/-- Rule R153: memory `2,0,0,0,99` at `pc = 4`; a step from there on does nothing. -/
theorem test_hlt : (testState [2, 0, 0, 0, 99] 4).stepped = testState [2, 0, 0, 0, 99] (-1) ∧
    (testState [2, 0, 0, 0, 99] (-1)).stepped = testState [2, 0, 0, 0, 99] (-1) := by decide
/-- Rule R162: the word is taken and stored; the IN's own word is overwritten. -/
theorem test_inp : (testState [3, 0, 4, 0, 99] 0 0 [10, 11]).stepped.snapshot = [10, 0, 4, 0, 99] ∧
    (testState [3, 0, 4, 0, 99] 0 0 [10, 11]).stepped.inq = [11] := by decide
/-- Rules R162, R164: with no word IN waits and nothing changes; with a bad destination it faults instead. -/
theorem test_inp_waits :
    (testState [3, 0, 99]).report = .waitingInput ∧ (testState [3, 0, 99]).stepped = testState [3, 0, 99] ∧
    (testState [3, -1, 99]).report = .faulted := by decide
/-- Rule R163: `204,-1` with `rb = 1` outputs cell 0; one word per OUT. -/
theorem test_out_relative : (testState [109, 1, 204, -1] 2 1).stepped.outq = [109] := by decide
/-- Rule R163: reading an unallocated cell outputs 0 and does not allocate it. -/
theorem test_out_unallocated : (testState [4, 50, 99]).stepped.outq = [0] ∧ (testState [4, 50, 99]).stepped.mlen = 3 := by
  decide
/-- Rule R180: a relative operand is read with the old `rb`: cell 1 + 3 holds 6. -/
theorem test_arb_old_base : (testState [209, 1, 99, 0, 6] 0 3).stepped.rb = 9 := by decide
/-- Rule R180: the sum wraps. -/
theorem test_arb_wraps : (testState [109, 1, 99] 0 9223372036854775807).stepped.rb = -9223372036854775808 := by decide

/-! ### Faults, fetching, the host and the tools around the core -/

/-- Rule R191: the record is written and nothing else changes. -/
theorem test_fault_entry : (testState [1101, 1, 1, 5, 98] 4 7).stepped =
    { testState [1101, 1, 1, 5, 98] 4 7 with fcause := .unknownOperation, fval := 98, fpc := 4 } := by decide
/-- Rule R115: the lowest faulting slot is reported. -/
theorem test_lowest_slot : (testState [1, -1, -1, -1]).stepped.fval = 0 ∧ (testState [1, 0, -1, -1]).stepped.fval = 1 ∧
    (testState [1, 0, 0, -1]).stepped.fval = 2 := by decide
/-- Rule R119: the sum of parameter and base is not wrapped: `WMAX + 1` is no address. -/
theorem test_relative_sum_exact :
    (testState [204, 9223372036854775807, 99] 0 1).stepped.fcause = .invalidAddress := by decide
/-- Rule R116: the parameter of an instruction in the last cell lies above `ADDR_MAX`. -/
theorem test_parameter_above_address_max :
    (smallState [99, 99, 99, 99, 99, 99, 99, 4] 7).stepped.fcause = .invalidAddress := by decide
/-- Rule R150: `ADD #0, #99, [4]` in an image of four cells extends memory over its successor and continues. -/
theorem test_extension_keeps_running :
    (testState [1101, 0, 99, 4]).stepped.pc = 4 ∧ (testState [1101, 0, 99, 4]).stepped.stepped.runState = .halted := by
  decide
/-- Rule R150: running off the end halts and is no fault. -/
theorem test_runs_off_end : (testState [109, 1]).stepped.pc = -1 ∧ (testState [109, 1]).stepped.fcause = .none := by decide
/-- Rule R42: a POKE beyond the extent allocates; PEEK outside the space is refused. -/
theorem test_poke : (hostAct (.poke 5 0) (testState [99])).1.mlen = 6 ∧
    (hostAct (.peek (-1)) (testState [99])).2 = .refused := by decide
/-- The placed instruction is fetched first after reset. -/
theorem test_with_fetch_word : (State.reset.withFetchWord 128 (2 ^ 64 * 7 + 104)).stepped.outq = [7] ∧
    (testState [99, 98, 1] 1).withFetchWord 64 99 = testState [99, 99, 0, 0, 0] 1 := by decide
/-- The memory array keeps its canonical form: writing 0 removes the entry. -/
theorem test_memory_canonical : Memory.write [(1, 5), (3, 7)] 3 0 = [(1, 5)] ∧ Memory.write [(1, 5), (3, 7)] 2 9 =
    [(1, 5), (2, 9), (3, 7)] := by decide
/-- Rules R102 and R103: the text of rule R143's example. -/
theorem test_assembler : assembleText ["MUL [4], #3, [4]"] = some [1002, 4, 3, 4] := by decide
/-- Rule R103: the image text. -/
theorem test_image_text : imageText [1002, -4, 3] = "1002,-4,3" := by decide
/-- Rules R103, R105: a label, data and a relative operand. -/
theorem test_assembler_label : assembleText ["loop: OUT [rb-1]", "JNZ #1, #loop", "DATA 7, loop"] =
    some [204, -1, 1105, 1, 0, 7, 0] := by decide
/-- Rules R210 to R212: core 0's output arrives behind core 1's phase setting. -/
theorem test_ring_move : ((Ring.start [104, 5, 99] [8, 9] [0]).move.cores.map State.inq) = [[8, 0], [9, 5]] := by decide

/-! ### Witnesses: states and operands that meet the hypotheses of each statement -/

/-- The reset state meets the invariant. -/
theorem reset_meets_invariant : MachineInv State.reset :=
  ⟨by decide, by decide, by decide, .inl rfl, rfl, rfl, by decide⟩

/-- A Running state meets the invariant: `ADD [0], [0], [0]` at address 0. -/
theorem running_meets_invariant : MachineInv (testState [1, 0, 0, 0, 99]) :=
  ⟨by decide, by decide, by decide, .inr (by decide), rfl, rfl, by decide⟩

/-- A Faulted state meets the invariant. -/
theorem faulted_meets_invariant : MachineInv (testState [98]).stepped :=
  ⟨by decide, by decide, by decide, .inr (by decide),
    show faultValueFits .unknownOperation 98 from ⟨by decide, by decide, rfl⟩, by decide, by decide⟩

/-- CanonicalWordsRoundTrip, LegalWordsExactly: an instruction with a W slot, its word, and a decoded word. -/
theorem witness_canonical_word :
    (Instr.eq .relative .relative .relative).wellFormed = true ∧ decode 99999 = .ok .hlt := by decide

/-- UndefinedOpcodesFault: words 0, 10 and 98 (the ends of the undefined ranges) and the words −1 and −99. -/
theorem witness_UndefinedOpcodesFault :
    (∀ w ∈ [(0 : Word), 10, 98], Running (testState [w]) ∧ 0 ≤ (testState [w]).instrWord.toInt ∧
      op (testState [w]).instrWord ∉ opcodes) ∧
    (∀ w ∈ [(-1 : Word), -99], Running (testState [w]) ∧ (testState [w]).instrWord.toInt < 0) := by
  unfold Running
  simp only [List.forall_mem_cons, List.not_mem_nil, IsEmpty.forall_iff, implies_true, and_true]
  repeat' apply And.intro
  all_goals decide

/-- ReservedEncodingsFault: 100001, the least word above 99999 with a defined opcode, and 30001, whose digit of
slot 2 is 3; 399 uses no slot and is outside. -/
theorem witness_ReservedEncodingsFault :
    (∀ w ∈ [(100001 : Word), 30001], Running (testState [w]) ∧ 0 ≤ (testState [w]).instrWord.toInt ∧
      op (testState [w]).instrWord ∈ opcodes) ∧
    (testState [100001]).instrWord.toInt > 99999 ∧
    (∃ k < arity (op (testState [30001]).instrWord), dig (testState [30001]).instrWord (k + 2) > 2) ∧
    ¬ ∃ k < arity (op (testState [399]).instrWord), dig (testState [399]).instrWord (k + 2) > 2 := by
  unfold Running
  simp only [List.forall_mem_cons, List.not_mem_nil, IsEmpty.forall_iff, implies_true, and_true]
  repeat' apply And.intro
  all_goals decide

/-- ImmediateDestinationsFault: 12208, the greatest such word of EQ, and 99103 of IN. -/
theorem witness_ImmediateDestinationsFault :
    (Running (testState [12208]) ∧ 0 ≤ (testState [12208]).instrWord.toInt ∧ (testState [12208]).instrWord.toInt ≤ 99999 ∧
      op (testState [12208]).instrWord ∈ [1, 2, 7, 8] ∧ dig (testState [12208]).instrWord 2 ≤ 2 ∧
      dig (testState [12208]).instrWord 3 ≤ 2 ∧ dig (testState [12208]).instrWord 4 = 1) ∧
    (Running (testState [99103]) ∧ 0 ≤ (testState [99103]).instrWord.toInt ∧ (testState [99103]).instrWord.toInt ≤ 99999 ∧
      op (testState [99103]).instrWord = 3 ∧ dig (testState [99103]).instrWord 2 = 1) := by
  unfold Running; decide

/-- StepRunsDecodedInstruction. -/
theorem witness_StepRunsDecodedInstruction :
    Running (testState [99]) ∧ decode ((testState [99]).mem.read (testState [99]).pc.toInt.toNat) = .ok .hlt := by
  unfold Running; decide

/-- PlacedInstructionRunsNext: from the reset state and from a Running one. -/
theorem witness_PlacedInstructionRunsNext :
    MachineInv State.reset ∧ MachineInv (testState [1, 0, 0, 0, 99]) ∧ decodeTableWord 64 99 = some .hlt :=
  ⟨reset_meets_invariant, running_meets_invariant, by decide⟩

/-- TerminalStepsChangeNothing: a halted and a faulted core. -/
theorem witness_TerminalStepsChangeNothing :
    ((testState [99] (-1)).fcause = .none ∧ (testState [99] (-1)).pc.toInt = -1) ∧
    (testState [98]).stepped.fcause ≠ .none := by decide

/-- StepIsThePseudocode: the whole address space allocated is still within the premise. -/
theorem witness_StepIsThePseudocode :
    (smallState [1, 0, 0, 0, 99, 0, 0, 0]).mlen ≤ ((smallState [1, 0, 0, 0, 99, 0, 0, 0]).addrMax : Nat) + 1 := by decide

/-- OneEffectOrFaultOrWait: a step that retires, one that faults, one that waits. -/
theorem witness_OneEffectOrFaultOrWait :
    (Running (testState [99, 0]) ∧ Running (testState [98, 0]) ∧ Running (testState [3, 0])) ∧
    step (testState [99, 0]) = .next (testState [99, 0] (-1)) ∧
    step (testState [98, 0]) = .next (faultedWith (testState [98, 0]) ⟨.unknownOperation, 98⟩) ∧
    step (testState [3, 0]) = .next (testState [3, 0]) := by
  refine ⟨?_, rfl, rfl, rfl⟩
  unfold Running
  exact ⟨by decide, by decide, by decide⟩

/-- InvariantAfterLoad, ResetLeaves, ResetStartsTheCore: the empty image, one that fills the space, and one cell
too many. -/
theorem witness_images :
    ([] : List Word).length ≤ ((smallState []).addrMax : Nat) + 1 ∧
    [(1 : Word), 2, 3, 4, 5, 6, 7, 8].length ≤ ((smallState []).addrMax : Nat) + 1 ∧
    ((smallState []).addrMax : Nat) + 1 < [(1 : Word), 2, 3, 4, 5, 6, 7, 8, 9].length := by decide

/-- InvariantKeptByStep, InvariantKeptByHost, RunStateCases: a step that stores and one from the reset state. -/
theorem witness_invariant_kept :
    MachineInv (testState [1, 0, 0, 0, 99]) ∧ step (testState [1, 0, 0, 0, 99]) = .next (testState [2, 0, 0, 0, 99] 4) ∧
    MachineInv State.reset ∧ step State.reset = .next State.reset :=
  ⟨running_meets_invariant, rfl, reset_meets_invariant, rfl⟩

/-- RunStateCases: a state of the invariant in each of the three run states. -/
theorem witness_RunStateCases :
    (MachineInv State.reset ∧ State.reset.runState = .halted) ∧
    (MachineInv (testState [1, 0, 0, 0, 99]) ∧ (testState [1, 0, 0, 0, 99]).runState = .running) ∧
    (MachineInv (testState [98]).stepped ∧ (testState [98]).stepped.runState = .faulted) ∧
    (MachineInv (testState [3, 5]) ∧ (testState [3, 5]).waitsForInput = true) :=
  ⟨⟨reset_meets_invariant, rfl⟩, ⟨running_meets_invariant, rfl⟩, ⟨faulted_meets_invariant, rfl⟩,
    ⟨by decide, by decide, by decide, .inr (by decide), rfl, rfl, by decide⟩, by decide⟩

/-- FaultsArePrecise. -/
theorem witness_FaultsArePrecise :
    (testState [98]).fcause = .none ∧ step (testState [98]) = .next (testState [98]).stepped ∧
    (testState [98]).stepped.fcause ≠ .none := ⟨rfl, rfl, by decide⟩

/-- FourFaultsExactly: a Running state and step for each cause. -/
theorem witness_FourFaultsExactly :
    (∀ w ∈ [(98 : Word), -1, 301, 100099, 103, 4], Running (testState [w, -1])) ∧
    (testState [98, -1]).stepped.fcause = .unknownOperation ∧ (testState [-1, -1]).stepped.fcause = .unknownOperation ∧
    (testState [301, -1]).stepped.fcause = .reservedEncoding ∧ (testState [100099, -1]).stepped.fcause = .reservedEncoding ∧
    (testState [103, -1]).stepped.fcause = .unsupportedWrite ∧ (testState [4, -1]).stepped.fcause = .invalidAddress := by
  unfold Running
  simp only [List.forall_mem_cons, List.not_mem_nil, IsEmpty.forall_iff, implies_true, and_true]
  repeat' apply And.intro
  all_goals decide

/-- FaultedUntilReset: a Faulted state, and a transaction that is no RESET. -/
theorem witness_FaultedUntilReset :
    (testState [98]).stepped.fcause ≠ .none ∧ ∀ image, HostCmd.step ≠ .reset image := ⟨by decide, fun _ h => by cases h⟩

/-- ReadOperandByMode, WriteAddressByMode: with `ADDR_MAX` = 7, the parameter cell 7 exists and cell 8 does not;
parameters 7 and 0 are addresses, 8 and −1 are none; a parameter of 8 with base −1 is one, a parameter of 7 with
base 1 is none. -/
theorem witness_operand_ranges :
    (smallState [0, 0, 0, 0, 0, 0, 4, 7] 6).validAddr ((smallState [0, 0, 0, 0, 0, 0, 4, 7] 6).pc.toInt + 1 + 0) ∧
    ¬ (smallState [0, 0, 0, 0, 0, 0, 0, 4] 7).validAddr ((smallState [0, 0, 0, 0, 0, 0, 0, 4] 7).pc.toInt + 1 + 0) ∧
    (smallState [4, 7]).validAddr 7 ∧ (smallState [4, 0]).validAddr 0 ∧
    ¬ (smallState [4, 8]).validAddr 8 ∧ ¬ (smallState [4, -1]).validAddr (-1) ∧
    (smallState [204, 8] 0 (-1)).validAddr (8 + (smallState [204, 8] 0 (-1)).rb.toInt) ∧
    ¬ (smallState [204, 7] 0 1).validAddr (7 + (smallState [204, 7] 0 1).rb.toInt) := by decide

/-- WriteStoresAndExtends, CanonicalMemoryIsUnique, HostReadsAllAndWritesCells: a canonical memory with a gap. -/
theorem witness_canonical_memory : Memory.wf [(1, 5), (7, 3)] ∧ (smallState [0, 5]).mem.wf ∧
    (smallState [0, 5]).validAddr 7 ∧ ¬ (smallState [0, 5]).validAddr 8 := by decide

/-- CellsBeyondExtentAreZero: the premise holds of a reset core, before a step that allocates. -/
theorem witness_CellsBeyondExtentAreZero :
    (∀ a, (smallState []).mlen ≤ a → (smallState []).mem.read a = 0) ∧
    step (testState [1101, 0, 7, 4]) = .next (testState [1101, 0, 7, 4]).stepped := ⟨fun _ _ => rfl, rfl⟩

/-- The operand hypotheses of the RRW instructions: all three resolve; slot 0, slot 1, slot 2 does not, with the
earlier ones resolved; and the word hypotheses of their decode faults. -/
theorem witness_rrw_operands :
    ((testState [1, 4, 5, 6, 7, 8]).readOperand 0 .position = .ok 7 ∧
      (testState [1, 4, 5, 6, 7, 8]).readOperand 1 .position = .ok 8 ∧
      (testState [1, 4, 5, 6, 7, 8]).writeAddr 2 .position = .ok 6) ∧
    (testState [1, -1, 0, 0]).readOperand 0 .position = .error (invalid 0) ∧
    ((testState [1, 0, -1, 0]).readOperand 0 .position = .ok 1 ∧
      (testState [1, 0, -1, 0]).readOperand 1 .position = .error (invalid 1)) ∧
    ((testState [1, 0, 0, -1]).readOperand 0 .position = .ok 1 ∧ (testState [1, 0, 0, -1]).readOperand 1 .position = .ok 1 ∧
      (testState [1, 0, 0, -1]).writeAddr 2 .position = .error (invalid 2)) := by
  refine ⟨⟨rfl, rfl, rfl⟩, rfl, ⟨rfl, rfl⟩, ⟨rfl, rfl, rfl⟩⟩

/-- The word hypotheses of the decode faults in the statements about the ten instructions: a word of each opcode
above 99999, and words with a reserved or an immediate digit. -/
theorem witness_decode_fault_words :
    (∀ o ∈ opcodes, 0 ≤ (wrap64 (100000 + o)).toInt ∧ op (wrap64 (100000 + o)) = o ∧ (wrap64 (100000 + o)).toInt > 99999) ∧
    (∀ o ∈ [(1 : Int), 2, 3, 4, 5, 6, 7, 8, 9], op (wrap64 (300 + o)) = o ∧ dig (wrap64 (300 + o)) 2 > 2) ∧
    (∀ o ∈ [(1 : Int), 2, 7, 8], legalWord (wrap64 (12200 + o)) o ∧ dig (wrap64 (12200 + o)) 2 ≤ 2 ∧
      dig (wrap64 (12200 + o)) 3 ≤ 2 ∧ dig (wrap64 (12200 + o)) 4 = 1) ∧
    (legalWord 103 3 ∧ dig 103 2 = 1) := by
  unfold legalWord opcodes
  simp only [List.forall_mem_cons, List.not_mem_nil, IsEmpty.forall_iff, implies_true, and_true]
  repeat' apply And.intro
  all_goals decide

/-- JnzJumpsWhenNonzero, JzJumpsWhenZero, ControlFlowFrame: a taken and an untaken condition, and each operand
fault. -/
theorem witness_jump_operands :
    ((testState [1105, 7, 3, 99]).readOperand 0 .immediate = .ok 7 ∧
      (testState [1105, 7, 3, 99]).readOperand 1 .immediate = .ok 3) ∧
    ((testState [1105, 0, 3, 99]).readOperand 0 .immediate = .ok 0 ∧
      (testState [1105, 0, 3, 99]).readOperand 1 .immediate = .ok 3) ∧
    (testState [5, -1, 0]).readOperand 0 .position = .error (invalid 0) ∧
    ((testState [5, 0, -1]).readOperand 0 .position = .ok 5 ∧
      (testState [5, 0, -1]).readOperand 1 .position = .error (invalid 1)) := by
  refine ⟨⟨rfl, rfl⟩, ⟨rfl, rfl⟩, rfl, ⟨rfl, rfl⟩⟩

/-- OutAppendsOneWord, ArbAddsToRelativeBase, OutFrame, ArbFrame: an operand that resolves, one that does not,
and the steps of both instructions. -/
theorem witness_read_operand :
    (testState [204, 1] 0 0).readOperand 0 .relative = .ok 1 ∧
    (testState [204, -1] 0 0).readOperand 0 .relative = .error (invalid 0) ∧
    exec (.out .relative) (testState [204, 1]) = .next (testState [204, 1]).stepped ∧
    exec (.arb .relative) (testState [209, 1]) = .next (testState [209, 1]).stepped := ⟨rfl, rfl, rfl, rfl⟩

/-- InTakesAndStores, InFrame: a destination and a word; a destination and no word; a bad destination; an
immediate destination. -/
theorem witness_in_operands :
    ((testState [3, 5] 0 0 [4, 6]).writeAddr 0 .position = .ok 5 ∧ (testState [3, 5] 0 0 [4, 6]).inq = 4 :: [6]) ∧
    ((testState [3, 5]).writeAddr 0 .position = .ok 5 ∧ (testState [3, 5]).inq = []) ∧
    (testState [3, -1]).writeAddr 0 .position = .error (invalid 0) ∧
    exec (.inp .position) (testState [3, 5] 0 0 [4, 6]) = .next (testState [3, 5] 0 0 [4, 6]).stepped :=
  ⟨⟨rfl, rfl⟩, ⟨rfl, rfl⟩, rfl, rfl⟩

/-- StoringInstructionsFrame: a step that stores and one that faults, of each of the four. -/
theorem witness_StoringInstructionsFrame :
    (Mode.position ≠ .immediate) ∧
    exec (.add .position .position .position) (testState [1, 0, 0, 4]) = .next (testState [1, 0, 0, 4]).stepped ∧
    exec (.mul .position .position .position) (testState [2, 0, 0, -1]) = .next (testState [2, 0, 0, -1]).stepped ∧
    exec (.lt .position .position .position) (testState [7, -1, 0, 4]) = .next (testState [7, -1, 0, 4]).stepped ∧
    exec (.eq .position .position .position) (testState [8, 0, -1, 4]) = .next (testState [8, 0, -1, 4]).stepped :=
  ⟨by decide, rfl, rfl, rfl, rfl⟩

/-- ControlFlowFrame: a step of each of the three. -/
theorem witness_ControlFlowFrame :
    exec (.jnz .immediate .immediate) (testState [1105, 1, 0]) = .next (testState [1105, 1, 0]).stepped ∧
    exec (.jz .immediate .immediate) (testState [1106, 1, 0]) = .next (testState [1106, 1, 0]).stepped ∧
    exec .hlt (testState [99]) = .next (testState [99]).stepped := ⟨rfl, rfl, rfl⟩

/-- OnlyArbWritesRelativeBase: a step that changes `rb`, and a transaction of the second clause. -/
theorem witness_OnlyArbWritesRelativeBase :
    step (testState [109, 1]) = .next (testState [109, 1]).stepped ∧
    (testState [109, 1]).stepped.rb ≠ (testState [109, 1]).rb ∧
    ((∀ image, HostCmd.poke 0 1 ≠ .reset image) ∧ HostCmd.poke 0 1 ≠ .step ∧ ∀ turns, HostCmd.poke 0 1 ≠ .run turns) :=
  ⟨rfl, by decide, by simp, by simp, by simp⟩

/-- ChannelsMoveOnlyByInAndOut: a step that takes a word and one that outputs one. -/
theorem witness_ChannelsMoveOnlyByInAndOut :
    step (testState [3, 5] 0 0 [4]) = .next (testState [3, 5] 0 0 [4]).stepped ∧
    (testState [3, 5] 0 0 [4]).stepped.inq ≠ (testState [3, 5] 0 0 [4]).inq ∧
    step (testState [104, 5]) = .next (testState [104, 5]).stepped ∧
    (testState [104, 5]).stepped.outq ≠ (testState [104, 5]).outq := ⟨rfl, by decide, rfl, by decide⟩

/-- StarvedInWaitsUntilFed. -/
theorem witness_StarvedInWaitsUntilFed :
    Running (testState [3, 5]) ∧ decode (testState [3, 5]).instrWord = .ok (.inp .position) ∧
    (testState [3, 5]).writeAddr 0 .position = .ok 5 ∧ (testState [3, 5]).inq = [] := by
  refine ⟨by unfold Running; decide, rfl, rfl, rfl⟩

/-- AppendedInputCommutesWithStep: an IN with a word, and an instruction that is no IN. -/
theorem witness_AppendedInputCommutesWithStep :
    (testState [3, 5] 0 0 [4]).waitsForInput = false ∧ (testState [104, 5]).waitsForInput = false := by decide

/-- DecodeAndResolutionArePure: two states that differ in both channels and the extent. -/
theorem witness_DecodeAndResolutionArePure :
    (testState [3, 5]).mem = (testState [3, 5, 0] 0 0 [4]).mem ∧ (testState [3, 5]).pc = (testState [3, 5, 0] 0 0 [4]).pc ∧
    (testState [3, 5]).addrMax = (testState [3, 5, 0] 0 0 [4]).addrMax ∧
    (testState [3, 5]).rb = (testState [3, 5, 0] 0 0 [4]).rb := by decide

/-- StoreIsSeenByNextFetch: `ADD #0, #99, [4]` stores HLT at its own successor. -/
theorem witness_StoreIsSeenByNextFetch :
    MachineInv (testState [1101, 0, 99, 4]) ∧ Running (testState [1101, 0, 99, 4]) ∧
    decode (testState [1101, 0, 99, 4]).instrWord = .ok (.add .immediate .immediate .position) ∧
    (testState [1101, 0, 99, 4]).readOperand 0 .immediate = .ok 0 ∧
    (testState [1101, 0, 99, 4]).readOperand 1 .immediate = .ok 99 ∧
    (testState [1101, 0, 99, 4]).writeAddr 2 .position = .ok 4 ∧
    ((4 : Nat) : Int) = (testState [1101, 0, 99, 4]).pc.toInt + 4 ∧
    decode (wrap64 ((0 : Word).toInt + (99 : Word).toInt)) = .ok .hlt ∧
    step (testState [1101, 0, 99, 4]) = .next (testState [1101, 0, 99, 4, 99] 4) := by
  refine ⟨⟨by decide, by decide, by decide, .inr (by decide), rfl, rfl, by decide⟩, by unfold Running; decide, rfl, rfl,
    rfl, rfl, by decide, by decide, rfl⟩

/-- ResetStateIsEmptyImage: a core that has run, with an empty queue. -/
theorem witness_ResetStateIsEmptyImage :
    (testState [104, 5]).stepped.inq = [] ∧ (testState [104, 5]).stepped.addrMax = Config.defaultAddrMax := by decide

/-- RunPassesThroughSteps: a run that returns Halted, one that returns Faulted, one that holds, one that goes on. -/
theorem witness_RunPassesThroughSteps :
    ((testState [99]).run [[], []]).2 = .returned .halted ∧ ((testState [98]).run [[], []]).2 = .returned .faulted ∧
    ((testState [3, 5]).run [[], []]).2 = .holding ∧ ((testState [1105, 1, 0]).run [[], []]).2 = .stillRunning := by decide

/-- RunContinuesWhenFed: a starved IN. -/
theorem witness_RunContinuesWhenFed : (testState [3, 5]).waitsForInput = true := by decide

/-- Rule R125: one RUN of `IN [3]; HLT` holds for a turn, takes the word that then arrives, and returns Halted. -/
theorem test_run_continues : (testState [3, 3, 99, 0]).run [[], [], [7], []] =
    (testState [3, 3, 99, 7] (-1), .returned .halted) := by decide

/-- AluWrapsExactResult: a sum and a product that are word values. -/
theorem witness_AluWrapsExactResult :
    isWordValue ((9223372036854775806 : Word).toInt + (1 : Word).toInt) ∧
    isWordValue ((3037000499 : Word).toInt * (3037000499 : Word).toInt) := by unfold isWordValue; decide

/-- CommitPcKeepsOrHalts: the ends of the range, 0 and `MLEN` − 1, and the two integers next to them. -/
theorem witness_CommitPcKeepsOrHalts :
    (testState [1, 2, 3]).mlen ≤ ((testState [1, 2, 3]).addrMax : Nat) + 1 ∧
    ((0 : Int) ≤ 0 ∧ (0 : Int) < ((testState [1, 2, 3]).mlen : Int)) ∧
    ((0 : Int) ≤ 2 ∧ (2 : Int) < ((testState [1, 2, 3]).mlen : Int)) ∧
    ((-1 : Int) < 0 ∧ ((testState [1, 2, 3]).mlen : Int) ≤ 3) := by decide

/-- RingRoutesOutput: core 1 of two, and the only core of one. -/
theorem witness_RingRoutesOutput :
    [testState [99], testState [104, 5]][1]? = some (testState [104, 5]) ∧ (1 + 1) % 2 ≠ 1 ∧
    [testState [99], testState [104, 5]][(1 + 1) % 2]? = some (testState [99]) ∧
    [testState [104, 5]][0]? = some (testState [104, 5]) ∧ (0 + 1) % 1 = 0 := by decide

/-- CoreStepsCommute: two cores that both output. -/
theorem witness_CoreStepsCommute :
    (0 : Nat) ≠ 1 ∧ [testState [104, 6], testState [104, 5]][0]? = some (testState [104, 6]) ∧
    [testState [104, 6], testState [104, 5]][1]? = some (testState [104, 5]) ∧
    (testState [104, 6]).waitsForInput = false ∧ (testState [104, 5]).waitsForInput = false := by decide

end Sys2Proof.Tests
end

section
/-! The run state (rule R36) by what `FCAUSE` and `pc` hold, what a step does in the terminal run states, and the
statement that puts them together. -/

namespace Sys2Proof.Proofs.RunState

open Sys2Proof.Machine Sys2Proof.Rules

variable {s : State}

/-- The three branches of `RunState`, with what each says of `FCAUSE` and `pc`. -/
theorem runState_cases (s : State) :
    (s.fcause ≠ .none ∧ s.runState = .faulted) ∨
    (s.fcause = .none ∧ s.pcInRange ∧ s.runState = .running) ∨
    (s.fcause = .none ∧ ¬ s.pcInRange ∧ s.runState = .halted) := by
  by_cases f : s.fcause = .none
  · by_cases r : s.pcInRange
    · exact .inr (.inl ⟨f, r, State.runState_running f r⟩)
    · exact .inr (.inr ⟨f, r, State.runState_halted f r⟩)
  · exact .inl ⟨f, State.runState_faulted f⟩

theorem runState_eq_faulted_iff : s.runState = .faulted ↔ s.fcause ≠ .none := by
  obtain ⟨f, h⟩ | ⟨f, -, h⟩ | ⟨f, -, h⟩ := runState_cases s <;> simp [f, h]

theorem runState_eq_running_iff : s.runState = .running ↔ Running s := by
  change _ ↔ s.fcause = .none ∧ s.pcInRange
  obtain ⟨f, h⟩ | ⟨f, r, h⟩ | ⟨f, r, h⟩ := runState_cases s
  · exact iff_of_false (by simp [h]) fun c => f c.1
  · exact iff_of_true h ⟨f, r⟩
  · exact iff_of_false (by simp [h]) fun c => r c.2

theorem runState_eq_halted_iff : s.runState = .halted ↔ s.fcause = .none ∧ ¬ s.pcInRange := by
  obtain ⟨f, h⟩ | ⟨f, r, h⟩ | ⟨f, r, h⟩ := runState_cases s
  · exact iff_of_false (by simp [h]) fun c => f c.1
  · exact iff_of_false (by simp [h]) fun c => c.2 r
  · exact iff_of_true h ⟨f, r⟩

/-- On the states of the invariant the only `pc` out of range is `HALT_PC` (rule R22). -/
theorem not_pcInRange_iff_pc_eq_haltPc (inv : MachineInv s) : ¬ s.pcInRange ↔ s.pc = Config.haltPc :=
  ⟨inv.pcLegal.resolve_right, fun p r => State.pc_ne_halt r p⟩

/-- `HALT_PC` is the word that is −1 (rule R8). -/
theorem eq_haltPc_iff_toInt {w : Word} : w = Config.haltPc ↔ w.toInt = -1 := by
  rw [← BitVec.toInt_inj, haltPc_toInt]

/-- On the states of the invariant the core is Halted exactly when it has no fault and `pc` is −1 (rule R36). -/
theorem runState_eq_halted_iff_pc (inv : MachineInv s) :
    s.runState = .halted ↔ s.fcause = .none ∧ s.pc.toInt = -1 := by
  rw [runState_eq_halted_iff, not_pcInRange_iff_pc_eq_haltPc inv, eq_haltPc_iff_toInt]

/-- No step leaves Halted or Faulted (rules R36, R124). -/
theorem step_of_not_running (inv : MachineInv s) (h : s.runState ≠ .running) : step s = .next s := by
  obtain ⟨f, -⟩ | ⟨-, -, run⟩ | ⟨-, r, -⟩ := runState_cases s
  · exact step_terminal (.inl f)
  · exact absurd run h
  · exact step_terminal (.inr ((not_pcInRange_iff_pc_eq_haltPc inv).mp r))

/-- A core that waits for input is Running (rules R36, R43). -/
theorem running_of_waitsForInput (h : s.waitsForInput = true) : s.runState = .running := by
  simp only [State.waitsForInput, Bool.and_eq_true, decide_eq_true_eq] at h
  obtain ⟨⟨run, -⟩, -⟩ := h
  exact run

/-- Settles O17: the run state's three branches, with `pc` out of range read as −1 by the invariant; the terminal
states are those whose step is a no-op. -/
theorem runStateCases : Obligations.RunStateCases := fun _ inv =>
  ⟨runState_eq_faulted_iff, runState_eq_halted_iff_pc inv, runState_eq_running_iff, step_of_not_running inv,
    running_of_waitsForInput⟩

end Sys2Proof.Proofs.RunState
end

section
/-! What the fetch and the operand resolution read: one congruence lemma per accessor, over two states that
agree on the fields it reads (rule R66). -/

namespace Sys2Proof.Proofs.Purity

open Sys2Proof.Machine

section Congruence

variable {s t : State} (hmem : s.mem = t.mem) (hpc : s.pc = t.pc) (hmax : s.addrMax = t.addrMax) (hrb : s.rb = t.rb)

include hmem hpc in
theorem instrWord_congr : s.instrWord = t.instrWord := by
  simp only [State.instrWord, hmem, hpc]

include hmem hmax in
theorem memRead_congr (k : Fin 3) (addr : Int) : s.memRead k addr = t.memRead k addr := by
  simp only [State.memRead, State.validAddr, hmem, hmax]

include hmem hpc hmax in
theorem param_congr (k : Fin 3) : s.param k = t.param k := by
  simp only [State.param, hpc, memRead_congr hmem hmax]

include hrb in
theorem addrOf_congr (p : Word) (m : Mode) : s.addrOf p m = t.addrOf p m := by
  cases m <;> simp only [State.addrOf, hrb]

include hmem hpc hmax hrb in
theorem readOperand_congr (k : Fin 3) (m : Mode) : s.readOperand k m = t.readOperand k m := by
  simp only [State.readOperand, param_congr hmem hpc hmax, addrOf_congr hrb, memRead_congr hmem hmax]

include hmem hpc hmax hrb in
theorem writeAddr_congr (k : Fin 3) (m : Mode) : s.writeAddr k m = t.writeAddr k m := by
  simp only [State.writeAddr, State.validAddr, param_congr hmem hpc hmax, addrOf_congr hrb,
    instrWord_congr hmem hpc, hmax]

end Congruence

/-- Settles O46: the instruction word, the parameters and the addresses they name read no other field. -/
theorem decodeAndResolutionArePure : Obligations.DecodeAndResolutionArePure := fun _ _ hmem hpc hmax =>
  ⟨congrArg decode (instrWord_congr hmem hpc), fun hrb k m =>
    ⟨readOperand_congr hmem hpc hmax hrb k m, writeAddr_congr hmem hpc hmax hrb k m⟩⟩

end Sys2Proof.Proofs.Purity
end

section
/-! The words the decoder rejects: `decode`'s answer to each, and the fault a Running core takes (rules R94 to
R98). The decoder reads the word as a natural number, the statements read it as an integer; `op` and `dig` carry
one to the other. -/

namespace Sys2Proof.Proofs.DecodeFaults

open Sys2Proof.Machine Sys2Proof.Rules

variable {s : State} {w : Word} {f : Format}

/-! ### The fields of a non-negative word -/

theorem op_eq_toNat_mod (h : 0 ≤ w.toInt) : op w = ((w.toNat % 100 : Nat) : Int) := by
  simp only [op, toNat_of_nonneg h]
  norm_cast

theorem dig_eq_digit (h : 0 ≤ w.toInt) (k : Nat) : dig w k = (digit w.toNat k : Int) := by
  simp only [dig, digit, toNat_of_nonneg h]
  norm_cast

/-- The opcode map is undefined outside the ten opcodes (rule R82). -/
theorem formatOf_eq_none_iff (h : 0 ≤ w.toInt) : formatOf (w.toNat % 100) = none ↔ op w ∉ opcodes := by
  rw [formatOf_none, op_eq_toNat_mod h, opcodes]
  simp only [List.mem_cons, List.not_mem_nil, or_false]
  omega

theorem exists_formatOf (h : 0 ≤ w.toInt) (ho : op w ∈ opcodes) : ∃ f, formatOf (w.toNat % 100) = some f :=
  Option.ne_none_iff_exists'.mp fun e => (formatOf_eq_none_iff h).mp e ho

/-! ### The lines of the decoder -/

/-- Every negative word is an unknown operation (rule R95). -/
theorem decode_negative (h : w.toInt < 0) : decode w = .error (.unknownOperation (wrap64 (trem w.toInt 100))) := by
  rw [decode, if_pos h]

/-- A word with an undefined opcode is an unknown operation (rule R94). -/
theorem decode_undefined (h : 0 ≤ w.toInt) (ho : op w ∉ opcodes) :
    decode w = .error (.unknownOperation (wrap64 (op w))) := by
  rw [decode, if_neg (not_lt.mpr h), (formatOf_eq_none_iff h).mpr ho, op_eq_toNat_mod h]

/-- A defined opcode does not save a word of more than five digits (rule R96). -/
theorem decode_tooLong (h : w.toInt > 99999) (ho : op w ∈ opcodes) : decode w = .error (.reservedEncoding w) := by
  have h0 : 0 ≤ w.toInt := by omega
  obtain ⟨f, hf⟩ := exists_formatOf h0 ho
  have hn : w.toNat > 99999 := by have := toNat_of_nonneg h0; omega
  rw [decode, if_neg (not_lt.mpr h0), hf]
  exact if_pos hn

/-- A word of at most five digits with a defined opcode is decided by its mode digits (rule R113). -/
theorem decode_eq_decodeModes (h : 0 ≤ w.toInt) (h5 : w.toInt ≤ 99999) (hf : formatOf (w.toNat % 100) = some f) :
    decode w = decodeModes w w.toNat f := by
  have hn : ¬ w.toNat > 99999 := by have := toNat_of_nonneg h; omega
  rw [decode, if_neg (not_lt.mpr h), hf]
  exact if_neg hn

/-! ### Reserved mode digits -/

/-- An opcode's arity is the number of modes of its instructions (rule R85). -/
theorem arity_opcode (i : Instr) : arity i.opcode = i.modes.length := by cases i <;> rfl

/-- A reserved digit in a slot below the arity is rejected, in every format (rule R97). -/
theorem decodeModes_reserved {n o k : Nat} (hf : FormatFits o f) (hk : k < arity o) (hd : 2 < digit n (k + 2)) :
    decodeModes w n f = .error (.reservedEncoding w) := by
  have hnone := modeOfDigit_none.mpr hd
  cases hf with
  | rrw mk ho hm _ =>
    rw [← ho .position .position .position, arity_opcode, hm] at hk
    match k, hk with
    | 0, _ | 1, _ | 2, _ => simp [decodeModes, hnone]
  | rr mk ho hm _ =>
    rw [← ho .position .position, arity_opcode, hm] at hk
    match k, hk with
    | 0, _ | 1, _ => simp [decodeModes, hnone]
  | w mk ho hm _ | r mk ho hm _ =>
    rw [← ho .position, arity_opcode, hm] at hk
    match k, hk with
    | 0, _ => simp [decodeModes, hnone]
  | n i ho hm _ =>
    rw [← ho, arity_opcode, hm] at hk
    exact absurd hk (Nat.not_lt_zero k)

/-- Rules R96 and R97 of the decoder: the word is too long, or the digit of a used slot is reserved. -/
theorem decode_reserved (h : 0 ≤ w.toInt) (ho : op w ∈ opcodes)
    (hr : w.toInt > 99999 ∨ ∃ k < arity (op w), dig w (k + 2) > 2) : decode w = .error (.reservedEncoding w) := by
  by_cases h5 : w.toInt > 99999
  · exact decode_tooLong h5 ho
  · obtain ⟨k, hk, hd⟩ := hr.resolve_left h5
    obtain ⟨f, hf⟩ := exists_formatOf h ho
    rw [op_eq_toNat_mod h] at hk
    rw [dig_eq_digit h] at hd
    rw [decode_eq_decodeModes h (not_lt.mp h5) hf]
    exact decodeModes_reserved (formatOf_fits hf) hk (by exact_mod_cast hd)

/-! ### Immediate destinations -/

/-- A digit that is not reserved stands for a mode (rules R83, R97). -/
theorem exists_modeOfDigit {d : Nat} (h : d ≤ 2) : ∃ m, modeOfDigit d = some m :=
  Option.ne_none_iff_exists'.mp fun e => absurd (modeOfDigit_none.mp e) (not_lt.mpr h)

/-- ADD, MUL, LT and EQ have format RRW (rule R85). -/
theorem formatOf_rrw {o : Nat} (h : (o : Int) ∈ [1, 2, 7, 8]) : ∃ mk, formatOf o = some (.rrw mk) := by
  simp only [List.mem_cons, List.not_mem_nil, or_false] at h
  obtain rfl | rfl | rfl | rfl : o = 1 ∨ o = 2 ∨ o = 7 ∨ o = 8 := by omega
  all_goals exact ⟨_, rfl⟩

/-- Rule R98 for ADD, MUL, LT and EQ: the W slot is `C`, and no source digit is reserved. -/
theorem decode_rrw_immediateDest (h : 0 ≤ w.toInt) (h5 : w.toInt ≤ 99999) (ho : op w ∈ [1, 2, 7, 8])
    (h2 : dig w 2 ≤ 2) (h3 : dig w 3 ≤ 2) (h4 : dig w 4 = 1) : decode w = .error (.unsupportedWrite w) := by
  rw [op_eq_toNat_mod h] at ho
  rw [dig_eq_digit h] at h2 h3 h4
  obtain ⟨mk, hf⟩ := formatOf_rrw ho
  obtain ⟨a, ha⟩ := exists_modeOfDigit (by exact_mod_cast h2)
  obtain ⟨b, hb⟩ := exists_modeOfDigit (by exact_mod_cast h3)
  have hc : modeOfDigit (digit w.toNat 4) = some .immediate := modeOfDigit_some.mpr (by exact_mod_cast h4)
  simp [decode_eq_decodeModes h h5 hf, decodeModes, ha, hb, hc, Mode.settable]

/-- Rule R98 for IN: the W slot is `A`. -/
theorem decode_inp_immediateDest (h : 0 ≤ w.toInt) (h5 : w.toInt ≤ 99999) (ho : op w = 3) (h2 : dig w 2 = 1) :
    decode w = .error (.unsupportedWrite w) := by
  rw [op_eq_toNat_mod h] at ho
  rw [dig_eq_digit h] at h2
  have hf : formatOf (w.toNat % 100) = some (.w .inp) := congrArg formatOf (show w.toNat % 100 = 3 by exact_mod_cast ho)
  have ha : modeOfDigit (digit w.toNat 2) = some .immediate := modeOfDigit_some.mpr (by exact_mod_cast h2)
  simp [decode_eq_decodeModes h h5 hf, decodeModes, ha, Mode.settable]

/-! ### The statements -/

/-- A Running core whose word does not decode takes that fault, in the statements' words. -/
theorem step_of_decode_error {e : DecodeError} (run : Running s) (h : decode s.instrWord = .error e) :
    step s = .next (faultedWith s (raiseOfDecode e)) := by
  obtain ⟨hf, hpc⟩ := run
  exact step_decodeFault (not_not_intro hf) hpc h

/-- The opcode of a negative word lies in `−99 .. 0` (rule R95). -/
theorem trem_range_of_neg {z : Int} (h : z < 0) : -99 ≤ trem z 100 ∧ trem z 100 ≤ 0 := by
  have lo := Int.tmod_nonneg 100 (show 0 ≤ -z by omega)
  have hi := Int.tmod_lt_of_pos (-z) (show (0 : Int) < 100 by decide)
  rw [Int.neg_tmod] at lo hi
  rw [trem]
  omega

/-- Settles O3: the decoder's two UnknownOperation lines, and the range of the remainder. -/
theorem undefinedOpcodesFault : Obligations.UndefinedOpcodesFault := fun _ run =>
  ⟨fun h ho => step_of_decode_error run (decode_undefined h ho),
    fun h => ⟨step_of_decode_error run (decode_negative h), trem_range_of_neg h⟩⟩

/-- Settles O4: the length is examined first, then the digit of each used slot. -/
theorem reservedEncodingsFault : Obligations.ReservedEncodingsFault := fun _ run h ho hr =>
  step_of_decode_error run (decode_reserved h ho hr)

/-- Settles O5: the destination is examined by the decoder, before any operand. -/
theorem immediateDestinationsFault : Obligations.ImmediateDestinationsFault := by
  rintro s run h h5 (⟨ho, h2, h3, h4⟩ | ⟨ho, h2⟩)
  · exact step_of_decode_error run (decode_rrw_immediateDest h h5 ho h2 h3 h4)
  · exact step_of_decode_error run (decode_inp_immediateDest h h5 ho h2)

end Sys2Proof.Proofs.DecodeFaults
end

section
/-! The operand resolver, mode by mode: what the parameter cell and the address it names decide, and the two
statements that follow (rules R116 to R119). -/

namespace Sys2Proof.Proofs.OperandModes

open Sys2Proof.Machine Sys2Proof.Rules

variable {s : State} {k : Fin 3} {m : Mode} {p : Word} {ea : Int}

/-! ### The parameter cell -/

theorem param_of_valid (h : s.validAddr (s.pc.toInt + 1 + (k : Nat))) :
    s.param k = .ok (s.mem.read (s.pc.toInt + 1 + (k : Nat)).toNat) := State.memRead_ok h

theorem param_of_invalid (h : ¬ s.validAddr (s.pc.toInt + 1 + (k : Nat))) : s.param k = .error (invalid k) :=
  State.memRead_invalid h

/-! ### R slots -/

theorem readOperand_of_param_error {r : Raise} (h : s.param k = .error r) (m : Mode) :
    s.readOperand k m = .error r := by
  rw [State.readOperand, h]

/-- A parameter that names no address is the value itself (rule R117, immediate). -/
theorem readOperand_of_addrOf_none (hp : s.param k = .ok p) (ha : s.addrOf p m = none) : s.readOperand k m = .ok p := by
  simp only [State.readOperand, hp, ha]

/-- A parameter that names an address has the value of that cell (rule R117, position and relative). -/
theorem readOperand_of_addrOf_some (hp : s.param k = .ok p) (ha : s.addrOf p m = some ea) :
    s.readOperand k m = s.memRead k ea := by
  simp only [State.readOperand, hp, ha]

/-! ### W slots -/

theorem writeAddr_of_param_error {r : Raise} (h : s.param k = .error r) (m : Mode) : s.writeAddr k m = .error r := by
  rw [State.writeAddr, h]

theorem writeAddr_of_valid (hp : s.param k = .ok p) (ha : s.addrOf p m = some ea) (h : s.validAddr ea) :
    s.writeAddr k m = .ok ea.toNat := by
  simp only [State.writeAddr, hp, ha, if_pos h]

theorem writeAddr_of_invalid (hp : s.param k = .ok p) (ha : s.addrOf p m = some ea) (h : ¬ s.validAddr ea) :
    s.writeAddr k m = .error (invalid k) := by
  simp only [State.writeAddr, hp, ha, if_neg h, invalid]

/-! ### The statements -/

/-- Settles O21: the parameter's cell is checked first, then, unless the mode is immediate, the address it names. -/
theorem readOperandByMode : Obligations.ReadOperandByMode := fun _ _ =>
  ⟨fun h => ⟨param_of_invalid h, readOperand_of_param_error (param_of_invalid h)⟩, fun h =>
    have hp := param_of_valid h
    ⟨_, rfl, hp, readOperand_of_addrOf_none hp rfl,
      fun v => (readOperand_of_addrOf_some hp rfl).trans (State.memRead_ok v),
      fun v => (readOperand_of_addrOf_some hp rfl).trans (State.memRead_invalid v),
      fun v => (readOperand_of_addrOf_some hp rfl).trans (State.memRead_ok v),
      fun v => (readOperand_of_addrOf_some hp rfl).trans (State.memRead_invalid v)⟩⟩

/-- Settles O22: the parameter's cell is checked first, then the exact address; no other cell is consulted. -/
theorem writeAddressByMode : Obligations.WriteAddressByMode := fun _ _ =>
  ⟨fun h => writeAddr_of_param_error (param_of_invalid h), fun h =>
    have hp := param_of_valid h
    ⟨_, rfl, writeAddr_of_valid hp rfl, writeAddr_of_invalid hp rfl, writeAddr_of_valid hp rfl,
      writeAddr_of_invalid hp rfl⟩⟩

end Sys2Proof.Proofs.OperandModes
end

section
/-! The report of a step, read off the state after it (rule R126), and the steps of the terminal states (rule R124). -/

namespace Sys2Proof.Proofs.StepReport

open Sys2Proof.Machine Sys2Proof.Proofs.RunState

variable {s t : State}

theorem stepped_eq_of_step (h : step s = .next t) : s.stepped = t := by
  rw [step_eq_stepped] at h
  cases h
  rfl

theorem report_of_faulted (h : step s = .next t) (f : t.fcause ≠ .none) : s.report = .faulted := by
  simp only [State.report, stepped_eq_of_step h, State.runState_faulted f]

theorem report_of_halted (h : step s = .next t) (f : t.fcause = .none) (p : t.pc = Config.haltPc) :
    s.report = .halted := by
  simp only [State.report, stepped_eq_of_step h, State.runState_halted f fun r => State.pc_ne_halt r p]

theorem report_of_running (h : step s = .next t) (f : t.fcause = .none) (r : t.pcInRange) :
    s.report = if s.waitsForInput then .waitingInput else .continue := by
  simp only [State.report, stepped_eq_of_step h, State.runState_running f r]

/-- Settles O9: a terminal step answers the state it was given, whose own run state is the report. -/
theorem terminalStepsChangeNothing : Obligations.TerminalStepsChangeNothing := by
  refine ⟨fun s f p => ?_, fun s f => ?_⟩
  · have hpc := eq_haltPc_iff_toInt.mpr p
    have hs := step_terminal (.inr hpc)
    exact ⟨hs, report_of_halted hs f hpc⟩
  · have hs := step_terminal (.inl f)
    exact ⟨hs, report_of_faulted hs f⟩

end Sys2Proof.Proofs.StepReport
end

section
/-! The spec's pseudocode of a step and the model's step, line by line: the decoder (rule R113), the operands (rules
R115 to R119), the execution (rule R111 lines 7 to 11), the whole step and its report. -/

namespace Sys2Proof.Proofs.Pseudocode

open Sys2Proof.Machine Sys2Proof.Rules
open Sys2Proof.Proofs.DecodeFaults Sys2Proof.Proofs.OperandModes Sys2Proof.Proofs.StepReport
open Sys2Proof.Proofs.RunState (eq_haltPc_iff_toInt)

variable {s t : State} {w : Word} {i : Instr}

/-! ### The decoder (rule R113) -/

/-- The digits of `n` from the third on are the modes of `i`, slot by slot (rule R81). -/
def ModeDigits (n : Nat) (i : Instr) : Prop := ∀ k m, i.modes[k]? = some m → digit n (k + 2) = m.toDigit

theorem pseudoArity_opcode (i : Instr) : pseudoArity i.opcode = i.modes.length := by cases i <;> rfl

theorem arity_eq_pseudoArity (o : Nat) : arity o = pseudoArity o := by
  simp only [arity, pseudoArity, List.mem_cons, List.not_mem_nil, or_false]
  norm_cast

/-- An instruction whose opcode has no W slot is well formed (rule R88). -/
theorem wellFormed_of_pseudoWSlot_none (h : pseudoWSlot i.opcode = none) : i.wellFormed = true := by
  cases i
  case add | mul | inp | lt | eq => cases h
  all_goals rfl

/-- An instruction with a W slot is well formed when the mode of that slot is settable (rule R88). -/
theorem wellFormed_of_pseudoWSlot_some {k : Nat} (h : pseudoWSlot i.opcode = some k) :
    ∃ m, i.modes[k]? = some m ∧ i.wellFormed = m.settable := by
  cases i
  case out | jnz | jz | arb | hlt => cases h
  all_goals cases h; exact ⟨_, rfl, rfl⟩

/-- Without a reserved digit the decoder builds an instruction, and only the W slot can still be wrong (rules R97,
R98). -/
theorem decodeModes_of_not_reserved {n o : Nat} {f : Format} (hf : FormatFits o f)
    (hr : ∀ k < pseudoArity o, digit n (k + 2) ≤ 2) :
    ∃ i, i.opcode = o ∧ ModeDigits n i ∧
      decodeModes w n f = if i.wellFormed then .ok i else .error (.unsupportedWrite w) := by
  cases hf with
  | rrw mk ho hm hw =>
    rw [← ho .position .position .position, pseudoArity_opcode, hm] at hr
    obtain ⟨a, ha⟩ := exists_modeOfDigit (hr 0 (by decide))
    obtain ⟨b, hb⟩ := exists_modeOfDigit (hr 1 (by decide))
    obtain ⟨d, hd⟩ := exists_modeOfDigit (hr 2 (by decide))
    refine ⟨mk a b d, ho a b d, fun k m e => ?_, by simp only [decodeModes, ha, hb, hd, hw]⟩
    rw [hm] at e
    match k, e with
    | 0, rfl => exact modeOfDigit_some.mp ha
    | 1, rfl => exact modeOfDigit_some.mp hb
    | 2, rfl => exact modeOfDigit_some.mp hd
  | rr mk ho hm hw =>
    rw [← ho .position .position, pseudoArity_opcode, hm] at hr
    obtain ⟨a, ha⟩ := exists_modeOfDigit (hr 0 (by decide))
    obtain ⟨b, hb⟩ := exists_modeOfDigit (hr 1 (by decide))
    refine ⟨mk a b, ho a b, fun k m e => ?_, by simp only [decodeModes, ha, hb, hw, if_true]⟩
    rw [hm] at e
    match k, e with
    | 0, rfl => exact modeOfDigit_some.mp ha
    | 1, rfl => exact modeOfDigit_some.mp hb
  | w mk ho hm hw | r mk ho hm hw =>
    rw [← ho .position, pseudoArity_opcode, hm] at hr
    obtain ⟨a, ha⟩ := exists_modeOfDigit (hr 0 (by decide))
    refine ⟨mk a, ho a, fun k m e => ?_, by simp only [decodeModes, ha, hw, if_true]⟩
    rw [hm] at e
    match k, e with
    | 0, rfl => exact modeOfDigit_some.mp ha
  | n i ho hm hw =>
    refine ⟨i, ho, fun k m e => ?_, by simp only [decodeModes, hw, if_true]⟩
    rw [hm] at e
    cases e

/-- Lines a to h of `Decode` (rule R113): the pseudocode's decoder gives the opcode of the model's, or the same
fault. -/
theorem pseudoDecode_eq (w : Word) : pseudoDecode w = ((decode w).map Instr.opcode).mapError raiseOfDecode := by
  by_cases neg : w.toInt < 0
  · rw [decode_negative neg]
    exact if_pos neg
  have h := not_lt.mp neg
  have hn : w.toInt.toNat = w.toNat := by rw [toNat_of_nonneg h, Int.toNat_natCast]
  simp only [pseudoDecode, if_neg neg, hn]
  cases hf : formatOf (w.toNat % 100) with
  | none =>
    rw [if_pos (formatOf_none.mp hf), decode_undefined h ((formatOf_eq_none_iff h).mp hf), op_eq_toNat_mod h]
    rfl
  | some f =>
    have ho : op w ∈ opcodes := by
      by_contra c
      rw [(formatOf_eq_none_iff h).mpr c] at hf
      cases hf
    rw [if_neg fun c => absurd (hf.symm.trans (formatOf_none.mpr c)) nofun]
    by_cases h5 : w.toInt > 99999
    · rw [if_pos h5, decode_tooLong h5 ho]
      rfl
    rw [if_neg h5]
    by_cases hr : ∃ k ∈ List.range (pseudoArity (w.toNat % 100)), digit w.toNat (k + 2) > 2
    · rw [if_pos hr, decode_eq_decodeModes h (not_lt.mp h5) hf]
      obtain ⟨k, hk, hd⟩ := hr
      rw [List.mem_range, ← arity_eq_pseudoArity] at hk
      rw [decodeModes_reserved (formatOf_fits hf) hk hd]
      rfl
    rw [if_neg hr, decode_eq_decodeModes h (not_lt.mp h5) hf]
    obtain ⟨i, hi, hd, e⟩ := decodeModes_of_not_reserved (w := w) (n := w.toNat) (formatOf_fits hf) fun k hk =>
      not_lt.mp fun c => hr ⟨k, List.mem_range.mpr hk, c⟩
    rw [e, ← hi]
    cases hw : pseudoWSlot i.opcode with
    | none =>
      rw [wellFormed_of_pseudoWSlot_none hw]
      rfl
    | some k =>
      obtain ⟨m, hm, wf⟩ := wellFormed_of_pseudoWSlot_some hw
      simp only [hd k m hm, wf]
      cases m <;> rfl

theorem modeDigits_of_decode (h : decode w = .ok i) : ModeDigits w.toNat i := by
  unfold decode at h
  split at h
  · cases h
  · split at h
    · cases h
    · rename_i hf
      split at h
      · cases h
      · exact (decodeModes_ok (formatOf_fits hf) h).2.2

/-! ### The operands (rules R115 to R119) -/

section Operands

variable {k : Fin 3} {m : Mode} {p : Word} {ea : Int}

theorem pseudoMemRead_eq (s : State) (k : Fin 3) (addr : Int) : pseudoMemRead s k addr = s.memRead k addr := by
  by_cases v : s.validAddr addr
  · rw [State.memRead_ok v, pseudoMemRead, if_neg (by omega)]
  · rw [State.memRead_invalid v, pseudoMemRead, if_pos (by omega)]
    rfl

/-- `EffAddr` checks the address the model's resolver names (rule R119). -/
theorem pseudoEffAddr_eq (ha : s.addrOf p m = some ea) :
    pseudoEffAddr s k m.toDigit p = if s.validAddr ea then .ok ea else .error (invalid k) := by
  have e : pseudoEffAddr s k m.toDigit p =
      if ea < 0 ∨ ea > (s.addrMax : Nat) then .error (invalid k) else .ok ea := by
    cases m <;> cases ha <;> rfl
  by_cases v : s.validAddr ea
  · rw [e, if_pos v, if_neg (by omega)]
  · rw [e, if_neg v, if_pos (by omega)]

theorem exists_addrOf_of_settable (s : State) (p : Word) (hm : m.settable = true) : ∃ ea, s.addrOf p m = some ea :=
  match m, hm with
  | .position, _ => ⟨_, rfl⟩
  | .relative, _ => ⟨_, rfl⟩

theorem pseudoReadOperand_eq (s : State) (k : Fin 3) (m : Mode) :
    pseudoReadOperand s k m.toDigit = s.readOperand k m := by
  simp only [pseudoReadOperand, pseudoMemRead_eq]
  change s.param k >>= _ = _
  cases hp : s.param k with
  | error r => exact (readOperand_of_param_error hp m).symm
  | ok p =>
    cases ha : s.addrOf p m with
    | none =>
      rw [readOperand_of_addrOf_none hp ha]
      cases m <;> cases ha
      rfl
    | some ea =>
      have hm : m.toDigit ≠ 1 := by cases m <;> cases ha <;> decide
      rw [readOperand_of_addrOf_some hp ha]
      simp only [bind, Except.bind, if_neg hm, pseudoEffAddr_eq ha]
      by_cases v : s.validAddr ea
      · rw [if_pos v]
      · rw [if_neg v, State.memRead_invalid v]
        rfl

theorem pseudoWriteAddr_eq (s : State) (k : Fin 3) (hm : m.settable = true) :
    pseudoWriteAddr s k m.toDigit = (s.writeAddr k m).map Int.ofNat := by
  simp only [pseudoWriteAddr, pseudoMemRead_eq]
  change s.param k >>= _ = _
  cases hp : s.param k with
  | error r =>
    rw [writeAddr_of_param_error hp]
    rfl
  | ok p =>
    obtain ⟨ea, ha⟩ := exists_addrOf_of_settable s p hm
    refine (pseudoEffAddr_eq ha).trans ?_
    by_cases v : s.validAddr ea
    · rw [if_pos v, writeAddr_of_valid hp ha v]
      exact congrArg Except.ok (Int.toNat_of_nonneg v.1).symm
    · rw [if_neg v, writeAddr_of_invalid hp ha v]
      rfl

end Operands

/-! ### The faults of the resolution (rule R190) -/

/-- The only fault the computation raises is InvalidAddress. -/
def RaisesInvalidAddress {α : Type} (x : Except Raise α) : Prop := ∀ r, x = .error r → r.cause = .invalidAddress

theorem raisesInvalidAddress_ok {α : Type} (a : α) : RaisesInvalidAddress (.ok a) := nofun

theorem RaisesInvalidAddress.bind {α β : Type} {x : Except Raise α} {f : α → Except Raise β}
    (hx : RaisesInvalidAddress x) (hf : ∀ a, RaisesInvalidAddress (f a)) : RaisesInvalidAddress (x >>= f) := by
  cases x with
  | ok a => exact hf a
  | error e =>
    rintro r ⟨⟩
    exact hx _ rfl

theorem raisesInvalidAddress_pseudoMemRead (s : State) (k : Nat) (addr : Int) :
    RaisesInvalidAddress (pseudoMemRead s k addr) := by
  unfold pseudoMemRead
  split
  · rintro r ⟨⟩
    rfl
  · exact raisesInvalidAddress_ok _

theorem raisesInvalidAddress_pseudoEffAddr (s : State) (k m : Nat) (p : Word) :
    RaisesInvalidAddress (pseudoEffAddr s k m p) := by
  unfold pseudoEffAddr
  extract_lets ea
  split
  · rintro r ⟨⟩
    rfl
  · exact raisesInvalidAddress_ok _

theorem raisesInvalidAddress_pseudoReadOperand (s : State) (k m : Nat) :
    RaisesInvalidAddress (pseudoReadOperand s k m) := by
  refine (raisesInvalidAddress_pseudoMemRead s k _).bind fun p => ?_
  split
  · exact raisesInvalidAddress_ok p
  · exact (raisesInvalidAddress_pseudoEffAddr s k m p).bind (raisesInvalidAddress_pseudoMemRead s k)

theorem raisesInvalidAddress_pseudoWriteAddr (s : State) (k m : Nat) : RaisesInvalidAddress (pseudoWriteAddr s k m) :=
  (raisesInvalidAddress_pseudoMemRead s k _).bind (raisesInvalidAddress_pseudoEffAddr s k m)

theorem raisesInvalidAddress_pseudoResolve (s : State) (w op n k : Nat) (acc : PseudoOperands) :
    RaisesInvalidAddress (pseudoResolve s w op n k acc) := by
  induction n generalizing k acc with
  | zero => exact raisesInvalidAddress_ok acc
  | succ n ih =>
    unfold pseudoResolve
    split
    · exact (raisesInvalidAddress_pseudoWriteAddr s k _).bind fun d => ih _ _
    · exact (raisesInvalidAddress_pseudoReadOperand s k _).bind fun v => ih _ _

/-! ### One slot of the resolution (rule R111 line 7) -/

section Slots

variable {m : Mode} {o n l k : Nat} {acc : PseudoOperands} {K : PseudoOperands → Result}

theorem resolved_bind {α β : Type} (s : State) (x : Except Raise α) (f : α → Except Raise β) (K : β → Result) :
    resolved s (x >>= f) K = resolved s x fun a => resolved s (f a) K := by
  cases x <;> rfl

/-- A slot that is not the W slot is read, and its value appended. -/
theorem resolved_pseudoResolve_read (j : Fin 3) (hj : (j : Nat) = k) (hw : pseudoWSlot o ≠ some k)
    (hd : digit n (k + 2) = m.toDigit) :
    resolved s (pseudoResolve s n o (l + 1) k acc) K = resolved s (s.readOperand j m) fun v =>
      resolved s (pseudoResolve s n o l (k + 1) { acc with vals := acc.vals ++ [v] }) K := by
  subst hj
  rw [pseudoResolve, if_neg hw, hd, pseudoReadOperand_eq, resolved_bind]

/-- The W slot gives the destination. -/
theorem pseudoResolve_write (j : Fin 3) (hj : (j : Nat) = k) (hw : pseudoWSlot o = some k)
    (hd : digit n (k + 2) = m.toDigit) (hm : m.settable = true) :
    pseudoResolve s n o (l + 1) k acc = (s.writeAddr j m).map Int.ofNat >>= fun d =>
      pseudoResolve s n o l (k + 1) { acc with dest := some d } := by
  subst hj
  rw [pseudoResolve, if_pos hw, hd, pseudoWriteAddr_eq s j hm]

theorem resolved_pseudoResolve_write (j : Fin 3) (hj : (j : Nat) = k) (hw : pseudoWSlot o = some k)
    (hd : digit n (k + 2) = m.toDigit) (hm : m.settable = true) :
    resolved s (pseudoResolve s n o (l + 1) k acc) K = resolved s (s.writeAddr j m) fun d =>
      resolved s (pseudoResolve s n o l (k + 1) { acc with dest := some (d : Int) }) K := by
  rw [pseudoResolve_write j hj hw hd hm]
  cases s.writeAddr j m <;> rfl

end Slots

/-! ### Execution (rule R111 lines 8 to 11) -/

/-- Lines 8 to 11 of rule R111, once the operands are gathered. -/
def pseudoFinish (s : State) (o : Nat) (args : PseudoOperands) : State × Report :=
  if o = 3 ∧ s.inq = [] then (s, .waitingInput)
  else
    let e := pseudoExecute s o args.vals (args.dest.getD 0)
    let t := pseudoCommitPc e.1 e.2
    (t, if t.pc.toInt ≠ -1 then .continue else .halted)

/-- Lines 7 to 11 of rule R111 as the model's result. -/
def pseudoRun (s : State) (n o : Nat) : Result :=
  resolved s (pseudoResolve s n o (pseudoArity o) 0 ⟨[], none⟩) fun args => .next (pseudoFinish s o args).1

theorem pseudoCommitPc_eq (s : State) (npc : Int) : pseudoCommitPc s npc = s.commitPc npc := rfl

theorem pseudoMemWrite_eq (s : State) (d : Nat) (v : Word) : pseudoMemWrite s d v = s.memWrite d v := by
  simp only [pseudoMemWrite, State.memWrite, Int.toNat_natCast, ge_iff_le, Nat.cast_le]
  split <;> rfl

theorem pseudoFinish_waits {o : Nat} {args : PseudoOperands} (h : o = 3 ∧ s.inq = []) :
    pseudoFinish s o args = (s, .waitingInput) := if_pos h

/-- Where the step does not wait, Execute and CommitPc are the model's `retire` of what Execute gives. -/
theorem pseudoFinish_retires {o : Nat} {args : PseudoOperands} {npc : Int} (h : ¬ (o = 3 ∧ s.inq = []))
    (e : pseudoExecute s o args.vals (args.dest.getD 0) = (t, npc)) :
    pseudoFinish s o args = (t.commitPc npc, if (t.commitPc npc).pc.toInt ≠ -1 then .continue else .halted) := by
  simp only [pseudoFinish, if_neg h, e, pseudoCommitPc_eq]

theorem retire_eq_pseudoFinish {o : Nat} {args : PseudoOperands} {npc : Int} (h : ¬ (o = 3 ∧ s.inq = []))
    (e : pseudoExecute s o args.vals (args.dest.getD 0) = (t, npc)) :
    retire t npc = .next (pseudoFinish s o args).1 := by
  rw [pseudoFinish_retires h e, retire]

theorem eq_zero_iff_toInt {v : Word} : v = 0 ↔ v.toInt = 0 := by
  rw [← BitVec.toInt_inj]
  rfl

theorem pseudoExecute_rrw {f : Word → Word → Word} {a b dest : Mode} (h : IsRRW i f a b dest) (va vb : Word) (d : Nat) :
    pseudoExecute s i.opcode [va, vb] (d : Int) = (s.memWrite d (f va vb), s.pc.toInt + 4) := by
  rw [← pseudoMemWrite_eq]
  cases h with
  | add | mul => rfl
  | lt => simp [pseudoExecute, Instr.opcode, aluLess, truthWord]
  | eq => simp [pseudoExecute, Instr.opcode, aluEqual, truthWord, BitVec.toInt_inj]

theorem pseudoExecute_jump {p : Word → Bool} {a b : Mode} (h : IsJump i p a b) (va vb : Word) (d : Int) :
    pseudoExecute s i.opcode [va, vb] d = (s, if p va then vb.toInt else s.pc.toInt + 3) := by
  cases h with
  | jnz | jz => simp [pseudoExecute, Instr.opcode, isNonzero, ← eq_zero_iff_toInt]

section Execution

variable {a b dest : Mode} {n : Nat}

theorem execRRW_eq {f : Word → Word → Word} (h : IsRRW i f a b dest) (hd : ModeDigits n i)
    (hs : dest.settable = true) : execRRW f a b dest s = pseudoRun s n i.opcode := by
  obtain ⟨hm, hw, h3⟩ : i.modes = [a, b, dest] ∧ pseudoWSlot i.opcode = some 2 ∧ i.opcode ≠ 3 := by
    cases h <;> exact ⟨rfl, rfl, by simp [Instr.opcode]⟩
  have digits (k : Nat) (m : Mode) (e : [a, b, dest][k]? = some m) : digit n (k + 2) = m.toDigit := hd k m (hm ▸ e)
  rw [execRRW, State.checkDest_ok hs, resolved_ok, pseudoRun, pseudoArity_opcode, hm]
  refine .trans ?_ (resolved_pseudoResolve_read 0 rfl (by simp [hw]) (digits 0 a rfl)).symm
  refine congrArg _ (funext fun va => ?_)
  refine .trans ?_ (resolved_pseudoResolve_read 1 rfl (by simp [hw]) (digits 1 b rfl)).symm
  refine congrArg _ (funext fun vb => ?_)
  refine .trans ?_ (resolved_pseudoResolve_write 2 rfl hw (digits 2 dest rfl) hs).symm
  refine congrArg _ (funext fun d => ?_)
  exact retire_eq_pseudoFinish (args := ⟨[va, vb], some d⟩) (fun c => h3 c.1) (pseudoExecute_rrw h va vb d)

theorem execJump_eq {p : Word → Bool} (h : IsJump i p a b) (hd : ModeDigits n i) :
    execJump p a b s = pseudoRun s n i.opcode := by
  obtain ⟨hm, hw, h3⟩ : i.modes = [a, b] ∧ pseudoWSlot i.opcode = none ∧ i.opcode ≠ 3 := by
    cases h <;> exact ⟨rfl, rfl, by simp [Instr.opcode]⟩
  have digits (k : Nat) (m : Mode) (e : [a, b][k]? = some m) : digit n (k + 2) = m.toDigit := hd k m (hm ▸ e)
  rw [execJump, pseudoRun, pseudoArity_opcode, hm]
  refine .trans ?_ (resolved_pseudoResolve_read 0 rfl (by simp [hw]) (digits 0 a rfl)).symm
  refine congrArg _ (funext fun va => ?_)
  refine .trans ?_ (resolved_pseudoResolve_read 1 rfl (by simp [hw]) (digits 1 b rfl)).symm
  refine congrArg _ (funext fun vb => ?_)
  exact retire_eq_pseudoFinish (args := ⟨[va, vb], none⟩) (fun c => h3 c.1) (pseudoExecute_jump h va vb 0)

theorem execIn_eq (hd : ModeDigits n (.inp dest)) (hs : dest.settable = true) :
    execIn dest s = pseudoRun s n 3 := by
  rw [execIn, State.checkDest_ok hs, resolved_ok]
  refine .trans ?_ (resolved_pseudoResolve_write 0 rfl rfl (hd 0 dest rfl) hs).symm
  refine congrArg _ (funext fun d => ?_)
  change _ = Host.Outcome.next (pseudoFinish s 3 ⟨[], some d⟩).1
  cases hq : s.inq with
  | nil => rw [State.inTake_nil s hq, pseudoFinish_waits ⟨rfl, hq⟩]
  | cons x rest =>
    have e : pseudoExecute s 3 [] (d : Int) = (State.memWrite { s with inq := rest } d x, s.pc.toInt + 2) := by
      rw [← pseudoMemWrite_eq]
      simp [pseudoExecute, hq]
    rw [State.inTake_cons s hq]
    exact retire_eq_pseudoFinish (by simp [hq]) e

/-- OUT and ARB: one operand is read, and its value makes the effect. -/
theorem execRead_eq {u : Word → State} {npc : Int} (hd : ModeDigits n i) (hm : i.modes = [a])
    (hw : pseudoWSlot i.opcode = none) (h3 : i.opcode ≠ 3) (e : ∀ v, pseudoExecute s i.opcode [v] 0 = (u v, npc)) :
    (resolved s (s.readOperand 0 a) fun v => retire (u v) npc) = pseudoRun s n i.opcode := by
  rw [pseudoRun, pseudoArity_opcode, hm]
  refine .trans ?_ (resolved_pseudoResolve_read 0 rfl (by simp [hw]) (hd 0 a (by rw [hm]; rfl))).symm
  exact congrArg _ (funext fun v => retire_eq_pseudoFinish (args := ⟨[v], none⟩) (fun c => h3 c.1) (e v))

/-- Executing an instruction is lines 7 to 11 of rule R111 on the digits of a word that encodes it. -/
theorem exec_eq_pseudoRun (hd : ModeDigits n i) (wf : i.wellFormed = true) : exec i s = pseudoRun s n i.opcode := by
  cases i with
  | add a b dest => exact execRRW_eq (.add a b dest) hd wf
  | mul a b dest => exact execRRW_eq (.mul a b dest) hd wf
  | inp dest => exact execIn_eq hd wf
  | out a => exact execRead_eq hd rfl rfl (by simp [Instr.opcode]) fun v => rfl
  | jnz a b => exact execJump_eq (.jnz a b) hd
  | jz a b => exact execJump_eq (.jz a b) hd
  | lt a b dest => exact execRRW_eq (.lt a b dest) hd wf
  | eq a b dest => exact execRRW_eq (.eq a b dest) hd wf
  | arb a => exact execRead_eq hd rfl rfl (by simp [Instr.opcode]) fun v => rfl
  | hlt => rfl

end Execution

/-! ### The run state after an execution (rules R22, R150) -/

/-- With `MLEN` inside the address space, `CommitPc` leaves `pc` in range or at `HALT_PC` (rules R22, R150). -/
theorem commitPc_legal (hb : s.mlen ≤ (s.addrMax : Nat) + 1) (npc : Int) :
    (s.commitPc npc).pc = Config.haltPc ∨ (s.commitPc npc).pcInRange := by
  have hmax := s.addrMax.isLt
  by_cases r : 0 ≤ npc ∧ npc < (s.mlen : Int)
  · have e : (wrap64 npc).toInt = npc := wrap64_toInt_of_range (by unfold wmin; omega) (by unfold wmax; omega)
    right
    rw [State.pcInRange, State.commitPc_pc, if_pos r, State.commitPc_mlen, e]
    exact r
  · left
    rw [State.commitPc_pc, if_neg r]

theorem memWrite_extentBound {d : Nat} (hb : s.mlen ≤ (s.addrMax : Nat) + 1) (hd : d ≤ (s.addrMax : Nat)) (v : Word) :
    (s.memWrite d v).mlen ≤ ((s.memWrite d v).addrMax : Nat) + 1 := by
  rw [State.memWrite_mlen, State.memWrite_addrMax]
  split <;> omega

/-- An execution from a `pc` in range ends in range or at `HALT_PC`. -/
theorem pc_legal_of_execOutcome (hb : s.mlen ≤ (s.addrMax : Nat) + 1) (r : s.pcInRange) (h : ExecOutcome i s t) :
    t.pc = Config.haltPc ∨ t.pcInRange := by
  cases h with
  | faulted | waited => exact .inr r
  | stored f a b dest va vb d _ _ _ hd => exact commitPc_legal (memWrite_extentBound hb (State.writeAddr_valid hd) _) _
  | took dest d x rest _ _ hd =>
    exact commitPc_legal (memWrite_extentBound (s := { s with inq := rest }) hb (State.writeAddr_valid hd) _) _
  | output a v => exact commitPc_legal (s := s.outPut v) hb _
  | adjusted a v => exact commitPc_legal (s := s.setRb (wrap64 (s.rb.toInt + v.toInt))) hb _
  | jumped | stopped => exact commitPc_legal hb _

theorem pseudoExecute_fcause (s : State) (o : Nat) (vals : List Word) (d : Int) :
    (pseudoExecute s o vals d).1.fcause = s.fcause := by
  have hm (s : State) (v : Word) : (pseudoMemWrite s d v).fcause = s.fcause := by
    unfold pseudoMemWrite
    extract_lets t
    split <;> rfl
  simp only [pseudoExecute, apply_ite Prod.fst, apply_ite State.fcause, hm, ite_self]

/-! ### The step and its report (rules R111, R126) -/

theorem waitsForInput_of_resolved {n : Nat} {args : PseudoOperands} (run : s.runState = .running)
    (h : decode s.instrWord = .ok i) (hd : ModeDigits n i) (c : i.opcode = 3 ∧ s.inq = [])
    (hr : pseudoResolve s n i.opcode (pseudoArity i.opcode) 0 ⟨[], none⟩ = .ok args) : s.waitsForInput = true := by
  obtain ⟨ho, hq⟩ := c
  obtain ⟨dest, rfl⟩ : ∃ dest, i = .inp dest := by
    cases i
    case inp dest => exact ⟨dest, rfl⟩
    all_goals cases ho
  have w := pseudoResolve_write (s := s) (o := 3) (l := 0) (acc := ⟨[], none⟩) 0 rfl rfl (hd 0 dest rfl)
    (decode_wellFormed h)
  cases hw : s.writeAddr 0 dest with
  | ok d => simp [State.waitsForInput, State.inAvail, run, hq, h, hw]
  | error r =>
    rw [hw] at w
    cases w.symm.trans hr

theorem waitsForInput_eq_false (h : decode s.instrWord = .ok i) (c : ¬ (i.opcode = 3 ∧ s.inq = [])) :
    s.waitsForInput = false := by
  by_cases hq : s.inq = []
  · cases i
    case inp => exact absurd ⟨rfl, hq⟩ c
    all_goals simp [State.waitsForInput, h]
  · simp [State.waitsForInput, State.inAvail, hq]

/-- A `pc` in range passes lines 2 and 3 of rule R111. -/
theorem pc_of_pcInRange (r : s.pcInRange) :
    s.pc.toInt ≠ -1 ∧ ¬ (s.pc.toInt < 0 ∨ s.pc.toInt ≥ s.mlen) := by
  omega

section Running

variable (f : s.fcause = .none) (r : s.pcInRange)
include f r

theorem pseudoStep_decodeFault {e : Raise} (h : pseudoDecode s.instrWord = .error e) :
    pseudoStep s = (s.raise e, .faulted) := by
  obtain ⟨hpc, hrange⟩ := pc_of_pcInRange r
  rw [State.instrWord] at h
  simp only [pseudoStep, if_neg (not_not_intro f), if_neg hpc, if_neg hrange, h]

theorem pseudoStep_resolveFault {o : Nat} {e : Raise} (h : pseudoDecode s.instrWord = .ok o)
    (hr : pseudoResolve s s.instrWord.toNat o (pseudoArity o) 0 ⟨[], none⟩ = .error e) :
    pseudoStep s = (s.raise e, .faulted) := by
  obtain ⟨hpc, hrange⟩ := pc_of_pcInRange r
  rw [State.instrWord] at h hr
  simp only [pseudoStep, if_neg (not_not_intro f), if_neg hpc, if_neg hrange, h, hr]

theorem pseudoStep_resolved {o : Nat} {args : PseudoOperands} (h : pseudoDecode s.instrWord = .ok o)
    (hr : pseudoResolve s s.instrWord.toNat o (pseudoArity o) 0 ⟨[], none⟩ = .ok args) :
    pseudoStep s = pseudoFinish s o args := by
  obtain ⟨hpc, hrange⟩ := pc_of_pcInRange r
  rw [State.instrWord] at h hr
  simp only [pseudoStep, if_neg (not_not_intro f), if_neg hpc, if_neg hrange, h, hr]
  rfl

/-- The report of a step whose operands resolved is the pseudocode's. -/
theorem report_eq_pseudoFinish {args : PseudoOperands} (hb : s.mlen ≤ (s.addrMax : Nat) + 1)
    (h : decode s.instrWord = .ok i)
    (hr : pseudoResolve s s.instrWord.toNat i.opcode (pseudoArity i.opcode) 0 ⟨[], none⟩ = .ok args)
    (hstep : step s = .next (pseudoFinish s i.opcode args).1) : s.report = (pseudoFinish s i.opcode args).2 := by
  by_cases c : i.opcode = 3 ∧ s.inq = []
  · rw [pseudoFinish_waits c] at hstep ⊢
    have w := waitsForInput_of_resolved (State.runState_running f r) h (modeDigits_of_decode h) c hr
    rw [report_of_running hstep f r, if_pos w]
  · have legal := pc_legal_of_execOutcome hb r
      (exec_outcome ((step_decoded (not_not_intro f) r h).symm.trans hstep))
    obtain ⟨t, npc, e⟩ : ∃ t npc, pseudoExecute s i.opcode args.vals (args.dest.getD 0) = (t, npc) := ⟨_, _, rfl⟩
    have fc : (t.commitPc npc).fcause = .none := by
      rw [State.commitPc_fcause, ← f, ← pseudoExecute_fcause s i.opcode args.vals (args.dest.getD 0), e]
    rw [pseudoFinish_retires c e] at hstep legal ⊢
    by_cases p : (t.commitPc npc).pc = Config.haltPc
    · rw [report_of_halted hstep fc p, if_neg (not_not_intro (eq_haltPc_iff_toInt.mp p))]
    · rw [report_of_running hstep fc (legal.resolve_left p), waitsForInput_eq_false h c,
        if_pos (mt eq_haltPc_iff_toInt.mpr p)]
      rfl

end Running

/-- The two transcriptions of rule R111 agree on state `s`: the state after the step, and its report. -/
def Agrees (s : State) : Prop := step s = .next (pseudoStep s).1 ∧ s.report = (pseudoStep s).2

theorem agrees_of_fault {e : Raise} (h : step s = .next (s.raise e)) (hp : pseudoStep s = (s.raise e, .faulted))
    (hc : e.cause ≠ .none) : Agrees s := by
  rw [Agrees, hp]
  exact ⟨h, report_of_faulted h hc⟩

theorem agrees_of_halt (h : step s = .next t) (hp : pseudoStep s = (t, .halted)) (f : t.fcause = .none)
    (p : t.pc = Config.haltPc) : Agrees s := by
  rw [Agrees, hp]
  exact ⟨h, report_of_halted h f p⟩

theorem raiseOfDecode_cause (e : DecodeError) : (raiseOfDecode e).cause ≠ .none := by cases e <;> exact nofun

/-- Lines 1 to 3 of rule R111: the core is not Running. -/
theorem agrees_of_not_running (h : ¬ (s.fcause = .none ∧ s.pcInRange)) : Agrees s := by
  by_cases f : s.fcause = .none
  · have r : ¬ s.pcInRange := fun r => h ⟨f, r⟩
    have hr : s.pc.toInt < 0 ∨ s.pc.toInt ≥ s.mlen := by omega
    by_cases p : s.pc = Config.haltPc
    · refine agrees_of_halt (step_terminal (.inr p)) ?_ f p
      rw [pseudoStep, if_neg (not_not_intro f), if_pos (eq_haltPc_iff_toInt.mp p)]
    · refine agrees_of_halt (t := { s with pc := Config.haltPc }) ?_ ?_ f rfl
      · rw [step, cycle, if_neg (not_not_intro f), if_neg p, if_pos r]
      · rw [pseudoStep, if_neg (not_not_intro f), if_neg (mt eq_haltPc_iff_toInt.mpr p), if_pos hr]
        rfl
  · have hs := step_terminal (.inl f)
    rw [Agrees, pseudoStep, if_pos f]
    exact ⟨hs, report_of_faulted hs f⟩

/-- Lines 4 to 11 of rule R111: the core is Running. -/
theorem agrees_of_running (hb : s.mlen ≤ (s.addrMax : Nat) + 1) (f : s.fcause = .none) (r : s.pcInRange) :
    Agrees s := by
  have hp := pseudoDecode_eq s.instrWord
  cases h : decode s.instrWord with
  | error e =>
    rw [h] at hp
    exact agrees_of_fault (step_decodeFault (not_not_intro f) r h) (pseudoStep_decodeFault f r hp)
      (raiseOfDecode_cause e)
  | ok i =>
    rw [h] at hp
    have hstep : step s = pseudoRun s s.instrWord.toNat i.opcode :=
      (step_decoded (not_not_intro f) r h).trans (exec_eq_pseudoRun (modeDigits_of_decode h) (decode_wellFormed h))
    rw [pseudoRun] at hstep
    cases hr : pseudoResolve s s.instrWord.toNat i.opcode (pseudoArity i.opcode) 0 ⟨[], none⟩ with
    | error e =>
      rw [hr, resolved_error] at hstep
      have hc := raisesInvalidAddress_pseudoResolve _ _ _ _ _ _ e hr
      exact agrees_of_fault hstep (pseudoStep_resolveFault f r hp hr) (by rw [hc]; decide)
    | ok args =>
      rw [hr, resolved_ok] at hstep
      rw [Agrees, pseudoStep_resolved f r hp hr]
      exact ⟨hstep, report_eq_pseudoFinish f r hb h hr hstep⟩

/-- Settles O10, by the lines of rule R111: not Running, a decode fault, an operand fault, and a step whose operands
resolved. -/
theorem stepIsThePseudocode : Obligations.StepIsThePseudocode := by
  intro s hb
  by_cases run : s.fcause = .none ∧ s.pcInRange
  · obtain ⟨f, r⟩ := run
    exact agrees_of_running hb f r
  · exact agrees_of_not_running run

end Sys2Proof.Proofs.Pseudocode
end

section
/-! What a decoded instruction says of its word, in the statements' terms (rules R81, R82, R113). -/

namespace Sys2Proof.Proofs.DecodedWords

open Sys2Proof.Machine Sys2Proof.Rules
open Sys2Proof.Proofs.DecodeFaults Sys2Proof.Proofs.Pseudocode

variable {w : Word} {i : Instr}

/-- A decoded word has at most five digits and ends in its instruction's opcode: every other word is rejected. -/
theorem legalWord_of_decode (h : decode w = .ok i) : legalWord w i.opcode := by
  have h0 : 0 ≤ w.toInt := by
    by_contra c
    cases h.symm.trans (decode_negative (not_le.mp c))
  have hop : op w ∈ opcodes := by
    by_contra c
    cases h.symm.trans (decode_undefined h0 c)
  have h5 : w.toInt ≤ 99999 := by
    by_contra c
    cases h.symm.trans (decode_tooLong (not_le.mp c) hop)
  obtain ⟨f, hf⟩ := exists_formatOf h0 hop
  rw [decode_eq_decodeModes h0 h5 hf] at h
  obtain ⟨ho, -, -⟩ := decodeModes_ok (formatOf_fits hf) h
  exact ⟨h0, h5, by rw [op_eq_toNat_mod h0, ho]⟩

/-- The digit of a used slot is the digit of the decoded mode. -/
theorem dig_of_decode (h : decode w = .ok i) {k : Nat} {m : Mode} (hm : i.modes[k]? = some m) :
    dig w (k + 2) = m.toDigit := by
  obtain ⟨h0, -, -⟩ := legalWord_of_decode h
  rw [dig_eq_digit h0, modeDigits_of_decode h k m hm]

end Sys2Proof.Proofs.DecodedWords
end

section
/-! ADD, MUL, LT and EQ (rules R141 to R145). The four rules differ in the opcode and the ALU function only, so what
they say is proved once, over the rows of the opcode map that have format RRW. -/

namespace Sys2Proof.Proofs.Arithmetic

open Sys2Proof.Machine Sys2Proof.Rules
open Sys2Proof.Proofs.DecodeFaults Sys2Proof.Proofs.DecodedWords

/-! ### The compare functions -/

theorem truthWord_eq_one_iff {c : Bool} : truthWord c = 1 ↔ c = true := by cases c <;> decide

theorem truthWord_eq_zero_iff {c : Bool} : truthWord c = 0 ↔ c = false := by cases c <;> decide

theorem aluLess_eq (a b : Word) : aluLess a b = if a.toInt < b.toInt then 1 else 0 := by
  simp only [aluLess, truthWord, decide_eq_true_eq]

theorem aluEqual_eq (a b : Word) : aluEqual a b = if a.toInt = b.toInt then 1 else 0 := by
  simp only [aluEqual, truthWord, decide_eq_true_eq]

/-- Settles O54: the result is the truth word of the comparison, and words are equal when their integers are. -/
theorem compareIsSigned : Obligations.CompareIsSigned := fun _ _ =>
  ⟨truthWord_eq_one_iff.trans decide_eq_true_iff,
    truthWord_eq_zero_iff.trans (decide_eq_false_iff_not.trans not_lt),
    truthWord_eq_one_iff.trans (decide_eq_true_iff.trans BitVec.toInt_inj),
    truthWord_eq_zero_iff.trans (decide_eq_false_iff_not.trans BitVec.toInt_inj.not)⟩

/-! ### The store -/

/-- A store and the pointer update, in the statements' words (rules R59, R150). -/
theorem commitPc_memWrite (s : State) (d : Nat) (v : Word) (npc : Int) :
    (s.memWrite d v).commitPc npc = stored s d v npc := by
  have hmax : (if s.mlen ≤ d then d + 1 else s.mlen) = max s.mlen (d + 1) := by split <;> omega
  rw [State.commitPc_eq, State.commitPc_pc, State.memWrite, hmax]
  rfl

/-! ### The rows of format RRW -/

/-- The rows of the opcode map with format RRW: the constructor, the opcode and the ALU function (rules R85, R93). -/
inductive RRWRow : (Mode → Mode → Mode → Instr) → Int → (Word → Word → Word) → Prop
  | add : RRWRow .add 1 aluAdd
  | mul : RRWRow .mul 2 aluMul
  | lt : RRWRow .lt 7 aluLess
  | eq : RRWRow .eq 8 aluEqual

section Row

variable {mk : Mode → Mode → Mode → Instr} {o : Int} {f : Word → Word → Word} (row : RRWRow mk o f)
include row

theorem opcode_of_row (a b dest : Mode) : ((mk a b dest).opcode : Int) = o := by cases row <;> rfl

theorem modes_of_row (a b dest : Mode) : (mk a b dest).modes = [a, b, dest] := by cases row <;> rfl

theorem wellFormed_of_row (a b dest : Mode) : (mk a b dest).wellFormed = dest.settable := by cases row <;> rfl

theorem mem_rrwOpcodes_of_row : o ∈ [1, 2, 7, 8] := by cases row <;> decide

theorem mem_opcodes_of_row : o ∈ opcodes := by cases row <;> decide

theorem formatOf_of_row : formatOf o.toNat = some (.rrw mk) := by cases row <;> rfl

theorem exec_of_row (a b dest : Mode) (s : State) : exec (mk a b dest) s = execRRW f a b dest s := by
  cases row <;> rfl

theorem length_of_row (a b dest : Mode) : (mk a b dest).length = 4 := by
  rw [Instr.length, Instr.arity, modes_of_row row]
  rfl

/-! ### The words -/

/-- The words that decode to an instruction of the row: the digits are those of its modes, the destination's is not
the immediate one (rules R81, R88). -/
theorem decode_iff_of_row {w : Word} {a b dest : Mode} : decode w = .ok (mk a b dest) ↔
    legalWord w o ∧ dig w 2 = a.toDigit ∧ dig w 3 = b.toDigit ∧ dig w 4 = dest.toDigit ∧ dest ≠ .immediate := by
  constructor
  · intro h
    have hdigit {k : Nat} {m : Mode} (e : [a, b, dest][k]? = some m) : dig w (k + 2) = m.toDigit :=
      dig_of_decode h (modes_of_row row a b dest ▸ e)
    have wf := decode_wellFormed h
    rw [wellFormed_of_row row] at wf
    exact ⟨opcode_of_row row a b dest ▸ legalWord_of_decode h, hdigit (k := 0) rfl, hdigit (k := 1) rfl,
      hdigit (k := 2) rfl, settable_iff.mp wf⟩
  · rintro ⟨⟨h0, h5, ho⟩, ha, hb, hd, hs⟩
    have hmode {k : Nat} {m : Mode} (e : dig w k = m.toDigit) : modeOfDigit (digit w.toNat k) = some m :=
      modeOfDigit_some.mpr (by rw [dig_eq_digit h0] at e; exact_mod_cast e)
    have hop : w.toNat % 100 = o.toNat := by rw [← ho, op_eq_toNat_mod h0, Int.toNat_natCast]
    rw [decode_eq_decodeModes h0 h5 (hop ▸ formatOf_of_row row)]
    simp only [decodeModes, hmode ha, hmode hb, hmode hd, settable_iff.mpr hs, if_true]

theorem decode_reserved_of_row {w : Word} (h0 : 0 ≤ w.toInt) (ho : op w = o)
    (h : w.toInt > 99999 ∨ dig w 2 > 2 ∨ dig w 3 > 2 ∨ dig w 4 > 2) : decode w = .error (.reservedEncoding w) := by
  have har : arity (op w) = 3 := by rw [ho, arity, if_pos (mem_rrwOpcodes_of_row row)]
  refine decode_reserved h0 (ho ▸ mem_opcodes_of_row row) (h.imp_right ?_)
  rw [har]
  rintro (h | h | h)
  · exact ⟨0, by decide, h⟩
  · exact ⟨1, by decide, h⟩
  · exact ⟨2, by decide, h⟩

theorem decode_immediateDest_of_row {w : Word} (h : legalWord w o) (h2 : dig w 2 ≤ 2) (h3 : dig w 3 ≤ 2)
    (h4 : dig w 4 = 1) : decode w = .error (.unsupportedWrite w) := by
  obtain ⟨h0, h5, ho⟩ := h
  exact decode_rrw_immediateDest h0 h5 (ho ▸ mem_rrwOpcodes_of_row row) h2 h3 h4

/-! ### The execution -/

/-- A destination the decoder lets through leaves the three operands to resolve (rules R115, R120). -/
theorem exec_of_row_settable {a b dest : Mode} (hd : dest ≠ .immediate) (s : State) :
    exec (mk a b dest) s =
      resolved s (s.readOperand 0 a) fun va =>
      resolved s (s.readOperand 1 b) fun vb =>
      resolved s (s.writeAddr 2 dest) fun d => .next (stored s d (f va vb) (s.pc.toInt + 4)) := by
  rw [exec_of_row row, execRRW, State.checkDest_ok (settable_iff.mpr hd), resolved_ok]
  simp only [retire, commitPc_memWrite]

/-- Rules R142 to R145 hold of their rows. -/
theorem rrwRule_of_row : rrwRule mk o f := by
  refine ⟨fun _ _ _ _ => decode_iff_of_row row, length_of_row row, fun _ => decode_reserved_of_row row,
    fun _ => decode_immediateDest_of_row row, ?stored, ?slot0, ?slot1, ?slot2⟩
  case stored =>
    intro s a b dest va vb d hs ha hb hd
    rw [exec_of_row_settable row hs, ha, resolved_ok, hb, resolved_ok, hd, resolved_ok]
  case slot0 =>
    intro s a b dest r hs ha
    obtain rfl : r = invalid 0 := State.readOperand_error ha
    exact ⟨rfl, by rw [exec_of_row_settable row hs, ha]; rfl⟩
  case slot1 =>
    intro s a b dest va r hs ha hb
    obtain rfl : r = invalid 1 := State.readOperand_error hb
    exact ⟨rfl, by rw [exec_of_row_settable row hs, ha, resolved_ok, hb]; rfl⟩
  case slot2 =>
    intro s a b dest va vb r hs ha hb hd
    obtain rfl : r = invalid 2 := State.writeAddr_error (settable_iff.mpr hs) hd
    exact ⟨rfl, by rw [exec_of_row_settable row hs, ha, resolved_ok, hb, resolved_ok, hd]; rfl⟩

end Row

/-! ### The statements -/

/-- Settles O26: the row of ADD, and the step of the rule's example evaluated. -/
theorem addStoresWrappedSum : Obligations.AddStoresWrappedSum :=
  ⟨rrwRule_of_row .add, by decide, by decide⟩

/-- Settles O27: the row of MUL, and the steps of the rule's examples evaluated. -/
theorem mulStoresWrappedProduct : Obligations.MulStoresWrappedProduct :=
  ⟨rrwRule_of_row .mul, by decide, by decide, by decide, by decide, by decide⟩

/-- Settles O28: the row of LT, whose ALU function is the signed comparison, and the step of the rule's example
evaluated. -/
theorem ltStoresSignedLess : Obligations.LtStoresSignedLess :=
  ⟨funext₂ aluLess_eq ▸ rrwRule_of_row .lt, by decide, by decide⟩

/-- Settles O29: the row of EQ, whose ALU function compares whole words, and the steps of the rule's examples
evaluated. -/
theorem eqStoresEquality : Obligations.EqStoresEquality :=
  ⟨funext₂ aluEqual_eq ▸ rrwRule_of_row .eq, by decide, by decide, by decide, by decide⟩

end Sys2Proof.Proofs.Arithmetic
end

section
/-! Which words decode to an instruction, and which words with its opcode are reserved, for every instruction at once
(rules R81, R93, R96, R97, R99). -/

namespace Sys2Proof.Proofs.LegalWords

open Sys2Proof.Machine Sys2Proof.Rules
open Sys2Proof.Proofs.DecodeFaults Sys2Proof.Proofs.DecodedWords Sys2Proof.Proofs.Pseudocode

variable {w : Word} {i : Instr}

/-- The opcode map leads from the opcode of an instruction to the instruction whose modes the digits name. -/
theorem exists_format_of_modeDigits {n : Nat} (wf : i.wellFormed = true) (hd : ModeDigits n i) :
    ∃ f, formatOf i.opcode = some f ∧ decodeModes w n f = .ok i := by
  have hmode {k : Nat} {m : Mode} (e : i.modes[k]? = some m) : modeOfDigit (digit n (k + 2)) = some m :=
    modeOfDigit_some.mpr (hd k m e)
  cases i with
  | add a b dest | mul a b dest | lt a b dest | eq a b dest =>
    have hs : dest.settable = true := wf
    exact ⟨_, rfl, by simp only [decodeModes, hmode (k := 0) rfl, hmode (k := 1) rfl, hmode (k := 2) rfl, hs, if_true]⟩
  | jnz a b | jz a b => exact ⟨_, rfl, by simp only [decodeModes, hmode (k := 0) rfl, hmode (k := 1) rfl]⟩
  | inp dest =>
    have hs : dest.settable = true := wf
    exact ⟨_, rfl, by simp only [decodeModes, hmode (k := 0) rfl, hs, if_true]⟩
  | out a | arb a => exact ⟨_, rfl, by simp only [decodeModes, hmode (k := 0) rfl]⟩
  | hlt => exact ⟨_, rfl, rfl⟩

/-- The words of an instruction: at most five digits, its opcode, and its modes in the used slots; the other digits
are free. -/
theorem decode_eq_ok_iff : decode w = .ok i ↔
    i.wellFormed = true ∧ legalWord w i.opcode ∧ ∀ k m, i.modes[k]? = some m → dig w (k + 2) = m.toDigit := by
  constructor
  · intro h
    exact ⟨decode_wellFormed h, legalWord_of_decode h, fun _ _ e => dig_of_decode h e⟩
  · rintro ⟨wf, ⟨h0, h5, ho⟩, hd⟩
    have hop : w.toNat % 100 = i.opcode := by rw [op_eq_toNat_mod h0] at ho; exact_mod_cast ho
    have digits : ModeDigits w.toNat i := fun k m e => by
      have := hd k m e
      rw [dig_eq_digit h0] at this
      exact_mod_cast this
    obtain ⟨f, hf, hi⟩ := exists_format_of_modeDigits wf digits
    rw [decode_eq_decodeModes h0 h5 (hop ▸ hf), hi]

theorem opcode_mem_opcodes (i : Instr) : (i.opcode : Int) ∈ opcodes := by cases i <;> simp [Instr.opcode, opcodes]

/-- A word with the opcode of `i` is reserved when it is too long or a digit in a slot that `i` uses is. -/
theorem decode_reserved_of_opcode (h0 : 0 ≤ w.toInt) (ho : op w = i.opcode)
    (h : w.toInt > 99999 ∨ ∃ k < i.modes.length, dig w (k + 2) > 2) : decode w = .error (.reservedEncoding w) :=
  decode_reserved h0 (ho ▸ opcode_mem_opcodes i) (by rwa [ho, arity_opcode])

end Sys2Proof.Proofs.LegalWords
end

section
/-! JNZ, JZ and HLT (rules R151 to R153). The two jumps differ in the opcode and the test of the condition only, so
what their rules say is proved once, over `IsJump`. -/

namespace Sys2Proof.Proofs.ControlFlow

open Sys2Proof.Machine Sys2Proof.Rules
open Sys2Proof.Proofs.DecodeFaults Sys2Proof.Proofs.LegalWords

/-- The pointer update alone, in the statements' words (rule R150). -/
theorem commitPc_eq_moved (s : State) (npc : Int) : s.commitPc npc = moved s npc := by
  rw [State.commitPc_eq, State.commitPc_pc]
  rfl

/-! ### The jumps -/

section Jump

variable {i : Instr} {p : Word → Bool} {a b : Mode} (jump : IsJump i p a b)
include jump

theorem modes_of_isJump : i.modes = [a, b] := by cases jump <;> rfl

theorem wellFormed_of_isJump : i.wellFormed = true := by cases jump <;> rfl

theorem length_of_isJump : i.length = 3 := by
  rw [Instr.length, Instr.arity, modes_of_isJump jump]
  rfl

theorem decode_iff_of_isJump {w : Word} :
    decode w = .ok i ↔ legalWord w i.opcode ∧ dig w 2 = a.toDigit ∧ dig w 3 = b.toDigit := by
  rw [decode_eq_ok_iff, modes_of_isJump jump]
  constructor
  · rintro ⟨-, hw, hd⟩
    exact ⟨hw, hd 0 a rfl, hd 1 b rfl⟩
  · rintro ⟨hw, ha, hb⟩
    refine ⟨wellFormed_of_isJump jump, hw, fun k m e => ?_⟩
    match k, e with
    | 0, rfl => exact ha
    | 1, rfl => exact hb

theorem decode_reserved_of_isJump {w : Word} (h0 : 0 ≤ w.toInt) (ho : op w = i.opcode)
    (h : w.toInt > 99999 ∨ dig w 2 > 2 ∨ dig w 3 > 2) : decode w = .error (.reservedEncoding w) := by
  refine decode_reserved_of_opcode h0 ho (h.imp_right ?_)
  rw [modes_of_isJump jump]
  rintro (h | h)
  · exact ⟨0, Nat.zero_lt_two, h⟩
  · exact ⟨1, Nat.one_lt_two, h⟩

/-- Both operands are resolved, in slot order, before the condition is tested (rules R115, R151). -/
theorem exec_of_isJump (s : State) :
    exec i s =
      resolved s (s.readOperand 0 a) fun va =>
      resolved s (s.readOperand 1 b) fun vb => .next (moved s (if p va then vb.toInt else s.pc.toInt + 3)) := by
  have dispatch : exec i s = execJump p a b s := by cases jump <;> rfl
  rw [dispatch, execJump]
  simp only [retire, commitPc_eq_moved]

end Jump

/-- Rules R151 and R152 hold of a jump whose test decides `P`. -/
theorem jumpRule_of_isJump {mk : Mode → Mode → Instr} {o : Int} {p : Word → Bool} {P : Word → Prop}
    (jump : ∀ a b, IsJump (mk a b) p a b) (opcode : ∀ a b, ((mk a b).opcode : Int) = o)
    (test : ∀ v, p v = true ↔ P v) : jumpRule mk o P := by
  refine ⟨fun _ a b => opcode a b ▸ decode_iff_of_isJump (jump a b), fun a b => length_of_isJump (jump a b),
    fun _ h0 ho => decode_reserved_of_isJump (jump .position .position) h0 (ho.trans (opcode _ _).symm),
    ?moved, ?slot0, ?slot1⟩
  case moved =>
    intro s a b va vb ha hb
    rw [exec_of_isJump (jump a b), ha, resolved_ok, hb, resolved_ok]
    exact ⟨fun h => by rw [if_pos ((test va).mpr h)], fun h => by rw [if_neg (mt (test va).mp h)]⟩
  case slot0 =>
    intro s a b r ha
    obtain rfl : r = invalid 0 := State.readOperand_error ha
    exact ⟨rfl, by rw [exec_of_isJump (jump a b), ha]; rfl⟩
  case slot1 =>
    intro s a b va r ha hb
    obtain rfl : r = invalid 1 := State.readOperand_error hb
    exact ⟨rfl, by rw [exec_of_isJump (jump a b), ha, resolved_ok, hb]; rfl⟩

theorem isNonzero_eq_true_iff (v : Word) : isNonzero v = true ↔ v.toInt ≠ 0 := decide_eq_true_iff

theorem not_isNonzero_eq_true_iff (v : Word) : (!isNonzero v) = true ↔ v.toInt = 0 := by
  rw [Bool.not_eq_true', ← Bool.not_eq_true, isNonzero_eq_true_iff, not_not]

/-- Settles O30: the jump whose test is `isNonzero`, and the steps of the rule's example evaluated. -/
theorem jnzJumpsWhenNonzero : Obligations.JnzJumpsWhenNonzero :=
  ⟨jumpRule_of_isJump .jnz (fun _ _ => rfl) isNonzero_eq_true_iff, by decide, by decide⟩

/-- Settles O31: the jump whose test is the negated `isNonzero`, and the steps of the rule's example evaluated. -/
theorem jzJumpsWhenZero : Obligations.JzJumpsWhenZero :=
  ⟨jumpRule_of_isJump .jz (fun _ _ => rfl) not_isNonzero_eq_true_iff, by decide, by decide⟩

/-! ### HLT -/

/-- HLT uses no slot, so every mode digit of its words is free (rules R99, R153). -/
theorem decode_eq_hlt_iff {w : Word} : decode w = .ok .hlt ↔ legalWord w 99 := by
  rw [decode_eq_ok_iff]
  exact ⟨fun ⟨_, hw, _⟩ => hw, fun hw => ⟨rfl, hw, nofun⟩⟩

/-- −1 is no address below `MLEN`, so HLT's successor commits to `HALT_PC` (rules R150, R153). -/
theorem exec_hlt (s : State) : exec .hlt s = .next { s with pc := Config.haltPc } := by
  change Host.Outcome.next (s.commitPc (-1)) = _
  rw [State.commitPc, if_neg (by omega)]

/-- Settles O32: the words from the decoder, the halt from the pointer update, and the later steps as those of a
terminal state; the step of the rule's example evaluated. -/
theorem hltHalts : Obligations.HltHalts :=
  ⟨fun _ => decode_eq_hlt_iff, rfl, fun _ h5 ho => decode_tooLong h5 (ho ▸ opcode_mem_opcodes .hlt), exec_hlt,
    fun _ => step_terminal (.inr rfl), by decide, by decide⟩

end Sys2Proof.Proofs.ControlFlow
end

section
/-! The instructions of one operand slot, IN, OUT and ARB: their length and their words; and what rules R163 and R180
say of the two that read their slot, proved once over the rows of the opcode map that have format R. -/

namespace Sys2Proof.Proofs.OneSlot

open Sys2Proof.Machine Sys2Proof.Rules
open Sys2Proof.Proofs.LegalWords Sys2Proof.Proofs.ControlFlow

/-! ### The words -/

section Words

variable {w : Word} {i : Instr} {m : Mode} (slot : i.modes = [m])
include slot

theorem length_of_oneSlot : i.length = 2 := by
  rw [Instr.length, Instr.arity, slot]
  rfl

/-- Of the mode digits only `A` is examined (rules R81, R99). -/
theorem decode_iff_of_oneSlot :
    decode w = .ok i ↔ i.wellFormed = true ∧ legalWord w i.opcode ∧ dig w 2 = m.toDigit := by
  rw [decode_eq_ok_iff, slot]
  constructor
  · rintro ⟨wf, hw, hd⟩
    exact ⟨wf, hw, hd 0 m rfl⟩
  · rintro ⟨wf, hw, hm⟩
    refine ⟨wf, hw, fun k n e => ?_⟩
    match k, e with
    | 0, rfl => exact hm

theorem decode_reserved_of_oneSlot (h0 : 0 ≤ w.toInt) (ho : op w = i.opcode)
    (h : w.toInt > 99999 ∨ dig w 2 > 2) : decode w = .error (.reservedEncoding w) := by
  refine decode_reserved_of_opcode h0 ho (h.imp_right fun hd => ?_)
  rw [slot]
  exact ⟨0, Nat.zero_lt_one, hd⟩

end Words

/-! ### The rows of format R -/

/-- The rows of the opcode map with format R: the constructor, the opcode and the effect of the operand's value on the
state (rules R85, R93). -/
inductive ReadRow : (Mode → Instr) → Int → (State → Word → State) → Prop
  | out : ReadRow .out 4 State.outPut
  | arb : ReadRow .arb 9 fun s v => s.setRb (wrap64 (s.rb.toInt + v.toInt))

section Row

variable {mk : Mode → Instr} {o : Int} {f : State → Word → State} (row : ReadRow mk o f)
include row

theorem opcode_of_readRow (a : Mode) : ((mk a).opcode : Int) = o := by cases row <;> rfl

theorem modes_of_readRow (a : Mode) : (mk a).modes = [a] := by cases row <;> rfl

theorem wellFormed_of_readRow (a : Mode) : (mk a).wellFormed = true := by cases row <;> rfl

/-- The operand is resolved before the effect, which the pointer update follows (rule R111). -/
theorem exec_of_readRow (a : Mode) (s : State) :
    exec (mk a) s = resolved s (s.readOperand 0 a) fun v => .next (moved (f s v) (s.pc.toInt + 2)) := by
  have dispatch : exec (mk a) s = resolved s (s.readOperand 0 a) fun v => retire (f s v) (s.pc.toInt + 2) := by
    cases row <;> rfl
  rw [dispatch]
  simp only [retire, commitPc_eq_moved]

/-- Rules R163 and R180 hold of their rows. -/
theorem readRule_of_readRow : readRule mk o f := by
  refine ⟨fun w a => ?words, fun a => length_of_oneSlot (modes_of_readRow row a),
    fun _ h0 ho => decode_reserved_of_oneSlot (modes_of_readRow row .position) h0
      (ho.trans (opcode_of_readRow row _).symm), ?effect, ?fault⟩
  case words =>
    rw [decode_iff_of_oneSlot (modes_of_readRow row a), opcode_of_readRow row]
    exact and_iff_right (wellFormed_of_readRow row a)
  case effect =>
    intro s a v ha
    rw [exec_of_readRow row, ha, resolved_ok]
  case fault =>
    intro s a r ha
    obtain rfl : r = invalid 0 := State.readOperand_error ha
    exact ⟨rfl, by rw [exec_of_readRow row, ha]; rfl⟩

end Row

end Sys2Proof.Proofs.OneSlot
end

section
/-! IN and OUT (rules R162 and R163). -/

namespace Sys2Proof.Proofs.InputOutput

open Sys2Proof.Machine Sys2Proof.Rules
open Sys2Proof.Proofs.Arithmetic Sys2Proof.Proofs.DecodeFaults Sys2Proof.Proofs.OneSlot

/-! ### IN -/

theorem decode_eq_inp_iff {w : Word} {dest : Mode} :
    decode w = .ok (.inp dest) ↔ legalWord w 3 ∧ dig w 2 = dest.toDigit ∧ dest ≠ .immediate := by
  have wf : (Instr.inp dest).wellFormed = true ↔ dest ≠ .immediate := settable_iff
  rw [decode_iff_of_oneSlot rfl, wf, and_comm, and_assoc]
  rfl

section Exec

variable {s : State} {dest : Mode} (settable : dest ≠ .immediate)
include settable

/-- The destination is resolved before the channel is looked at: its fault does not depend on `INQ`. -/
theorem exec_inp_of_fault {r : Raise} (h : s.writeAddr 0 dest = .error r) :
    exec (.inp dest) s = .next (faultedWith s r) := by
  change execIn dest s = _
  rw [execIn, State.checkDest_ok (settable_iff.mpr settable), resolved_ok, h]
  rfl

/-- With no word available the step waits (rule R164). -/
theorem exec_inp_of_empty {d : Nat} (h : s.writeAddr 0 dest = .ok d) (hq : s.inq = []) :
    exec (.inp dest) s = .next s := by
  change execIn dest s = _
  rw [execIn, State.checkDest_ok (settable_iff.mpr settable), resolved_ok, h, resolved_ok, State.inTake_nil s hq]

/-- The head of `INQ` is taken and stored in the same step. -/
theorem exec_inp_of_word {d : Nat} {x : Word} {rest : List Word} (h : s.writeAddr 0 dest = .ok d)
    (hq : s.inq = x :: rest) :
    exec (.inp dest) s = .next (stored { s with inq := rest } d x (s.pc.toInt + 2)) := by
  change execIn dest s = _
  rw [execIn, State.checkDest_ok (settable_iff.mpr settable), resolved_ok, h, resolved_ok, State.inTake_cons s hq]
  exact congrArg Host.Outcome.next (commitPc_memWrite _ d x _)

end Exec

/-- Settles O33: the words from the decoder, and one lemma for each of the three things IN can do; the step of the
rule's example evaluated. -/
theorem inTakesAndStores : Obligations.InTakesAndStores := by
  refine ⟨fun _ _ => decode_eq_inp_iff, fun _ => length_of_oneSlot rfl,
    fun _ => decode_reserved_of_oneSlot (i := .inp .position) rfl,
    fun _ ⟨h0, h5, ho⟩ => decode_inp_immediateDest h0 h5 ho,
    fun _ _ _ _ _ hs => exec_inp_of_word hs, fun _ _ _ hs => exec_inp_of_empty hs, fun s dest r hs h => ?fault,
    by decide, by decide, by decide⟩
  case fault =>
    obtain rfl : r = invalid 0 := State.writeAddr_error (settable_iff.mpr hs) h
    exact ⟨rfl, exec_inp_of_fault hs h⟩

/-! ### OUT -/

/-- Settles O34: the row of OUT, and the steps of the rule's examples evaluated. -/
theorem outAppendsOneWord : Obligations.OutAppendsOneWord :=
  ⟨readRule_of_readRow .out, by decide, by decide, by decide, by decide⟩

end Sys2Proof.Proofs.InputOutput
end

section
/-! ARB and the register it writes (rules R180 and R181): the row of ARB, and everything else that leaves `rb` as it
is, an execution, a step, and a transaction of the host. -/

namespace Sys2Proof.Proofs.RelativeBase

open Sys2Proof.Machine Sys2Proof.Rules Sys2Proof.Proofs.OneSlot

variable {s t : State} {i : Instr}

/-- Settles O35: the row of ARB, and the step of the rule's example evaluated. -/
theorem arbAddsToRelativeBase : Obligations.ArbAddsToRelativeBase :=
  ⟨readRule_of_readRow .arb, by decide, by decide⟩

/-- Only an ARB whose operand resolved sets `rb`: every other effect is one on memory, a channel or `pc`, and a fault
writes its record alone. -/
theorem arb_of_execOutcome_rb_ne (outcome : ExecOutcome i s t) (changed : t.rb ≠ s.rb) :
    (∃ a, i = .arb a) ∧ t.fcause = s.fcause := by
  cases outcome with
  | faulted r _ => exact absurd (s.raise_rb r) changed
  | waited => exact absurd rfl changed
  | stored => exact absurd (by simp) changed
  | took => exact absurd (by simp) changed
  | output => exact absurd (by simp) changed
  | jumped => exact absurd (s.commitPc_rb _) changed
  | adjusted a v arb _ => exact ⟨⟨a, arb⟩, by simp⟩
  | stopped => exact absurd (s.commitPc_rb _) changed

/-- Outside an execution a step leaves `rb`: in a terminal state, at line 3 and at a decode fault. -/
theorem arb_of_stepOutcome_rb_ne (outcome : StepOutcome s t) (changed : t.rb ≠ s.rb) :
    ∃ a, Running s ∧ decode s.instrWord = .ok (.arb a) ∧ t.fcause = .none := by
  cases outcome with
  | terminal => exact absurd rfl changed
  | lineThree => exact absurd rfl changed
  | decodeFault e => exact absurd (s.raise_rb _) changed
  | executed i _ notFaulted inRange decoded _ executed =>
    have noFault : s.fcause = .none := not_not.mp notFaulted
    obtain ⟨⟨a, rfl⟩, keepsCause⟩ := arb_of_execOutcome_rb_ne executed changed
    exact ⟨a, ⟨noFault, inRange⟩, decoded, keepsCause.trans noFault⟩

/-- The port has no write to `rb`: but for `RESET` only the steps it takes, by `STEP` and `RUN`, can change it (rule
R42). -/
theorem hostAct_rb (c : HostCmd) (s : State) (notReset : ∀ image, c ≠ .reset image) (notStep : c ≠ .step)
    (notRun : ∀ turns, c ≠ .run turns) : (hostAct c s).1.rb = s.rb := by
  cases c with
  | reset image => exact absurd rfl (notReset image)
  | step => exact absurd rfl notStep
  | run turns => exact absurd rfl (notRun turns)
  | peek addr =>
    rw [hostAct]
    split <;> rfl
  | poke addr v =>
    rw [hostAct]
    split <;> rfl
  | status => rfl
  | appendInput words => exact s.feed_rb words

/-- Settles O41: what a step that changes `rb` was, the port's transactions, and the reset value (rule R232). -/
theorem onlyArbWritesRelativeBase : Obligations.OnlyArbWritesRelativeBase :=
  ⟨fun _ _ h => arb_of_stepOutcome_rb_ne (step_outcome h), hostAct_rb, State.load_rb⟩

end Sys2Proof.Proofs.RelativeBase
end

section
/-! What the host's transactions do (rules R40, R42): what every transaction but `RESET` keeps, said once, the Faulted
state that therefore lasts until `RESET` (rule R199), and what `PEEK`, `POKE` and `STATUS` show and write (rule
R207). -/

namespace Sys2Proof.Proofs.HostTransactions

open Sys2Proof.Machine Sys2Proof.Rules Sys2Proof.Proofs.StepReport

variable {s : State} {a : Int}

/-! ### Every transaction but RESET -/

/-- But for `RESET`, the port acts on the core only by a step, an append to `INQ` and the write of a cell. -/
theorem hostAct_keeps {P : State → Prop} (feed : ∀ s ws, P s → P (s.feed ws)) (step : ∀ s, P s → P s.stepped)
    (write : ∀ s (a : Int) v, s.validAddr a → P s → P (s.memWrite a.toNat v)) (c : HostCmd)
    (notReset : ∀ image, c ≠ .reset image) (s : State) (h : P s) : P (hostAct c s).1 := by
  cases c with
  | reset image => exact absurd rfl (notReset image)
  | step => exact step s h
  | run turns => exact State.run_keeps feed step s turns h
  | peek addr =>
    rw [hostAct]
    split <;> exact h
  | poke addr v =>
    rw [hostAct]
    split
    case isTrue valid => exact write s addr v valid h
    case isFalse => exact h
  | status => exact h
  | appendInput words => exact feed s words h

/-! ### The Faulted state -/

/-- A step of a Faulted core changes nothing (rule R124). -/
theorem stepped_of_faulted (f : s.fcause ≠ .none) : s.stepped = s :=
  stepped_eq_of_step (step_terminal (.inl f))

/-- `t` has the fault record of `s`, its `pc` and `rb`, and its output. -/
def SameRecordAndOutput (s t : State) : Prop :=
  t.fcause = s.fcause ∧ t.fval = s.fval ∧ t.fpc = s.fpc ∧ t.pc = s.pc ∧ t.rb = s.rb ∧ t.outq = s.outq

/-- A state with the record of a Faulted one is Faulted, so its step is as little a change. -/
theorem SameRecordAndOutput.stepped {t : State} (f : s.fcause ≠ .none) (h : SameRecordAndOutput s t) :
    SameRecordAndOutput s t.stepped := by
  have cause : t.fcause = s.fcause := h.1
  rwa [stepped_of_faulted (cause ▸ f)]

/-- Settles O20: what a transaction other than `RESET` does is a step, which a Faulted core does not take, or a write
to `INQ` or to a cell. -/
theorem faultedUntilReset : Obligations.FaultedUntilReset := fun s f =>
  ⟨stepped_of_faulted f, fun c notReset =>
    hostAct_keeps (P := SameRecordAndOutput s) (fun _ _ h => h) (fun _ h => h.stepped f) (fun _ _ _ _ h => h) c
      notReset s ⟨rfl, rfl, rfl, rfl, rfl, rfl⟩⟩

/-! ### PEEK and POKE -/

theorem hostAct_peek_of_valid (h : s.validAddr a) : hostAct (.peek a) s = (s, .word (s.mem.read a.toNat)) := if_pos h

theorem hostAct_peek_of_invalid (h : ¬ s.validAddr a) : hostAct (.peek a) s = (s, .refused) := if_neg h

theorem hostAct_poke_of_valid (h : s.validAddr a) (v : Word) : hostAct (.poke a v) s = (s.memWrite a.toNat v, .done) :=
  if_pos h

theorem hostAct_poke_of_invalid (h : ¬ s.validAddr a) (v : Word) : hostAct (.poke a v) s = (s, .refused) := if_neg h

/-- A store extends `MLEN` over its cell (rule R59). -/
theorem memWrite_mlen_eq_max (s : State) (d : Nat) (v : Word) : (s.memWrite d v).mlen = max s.mlen (d + 1) := by
  rw [State.memWrite_mlen]
  split <;> omega

/-- A store of a canonical memory, read at integer addresses. -/
theorem read_memWrite_toNat {b : Int} (wf : s.mem.wf) (ha : 0 ≤ a) (hb : 0 ≤ b) (v : Word) :
    (s.memWrite a.toNat v).mem.read b.toNat = if b = a then v else s.mem.read b.toNat := by
  have hab : b.toNat = a.toNat ↔ b = a := by omega
  simp only [State.memWrite_mem, Memory.read_write _ _ _ wf, hab]

/-- Settles O51: what the port answers at a valid and at an invalid address, and the memory a POKE leaves, read back by
PEEK and by the fetch. -/
theorem hostReadsAllAndWritesCells : Obligations.HostReadsAllAndWritesCells := by
  refine fun s a v wf => ⟨fun valid => ⟨hostAct_peek_of_valid valid, _, hostAct_poke_of_valid valid v, ?peek,
    memWrite_mlen_eq_max s _ v, rfl, ⟨rfl, rfl, rfl, rfl⟩, ⟨rfl, rfl, rfl⟩, ?fetch⟩,
    fun invalid => ⟨hostAct_peek_of_invalid invalid, hostAct_poke_of_invalid invalid v⟩, rfl⟩
  case peek =>
    intro b hb
    rw [hostAct_peek_of_valid (s := s.memWrite a.toNat v) hb, read_memWrite_toNat wf valid.1 hb.1]
  case fetch =>
    rintro rfl
    exact Memory.read_write_same _ v wf

end Sys2Proof.Proofs.HostTransactions
end

section
/-! When each of the four faults is raised, and with what value (rule R190): the classes of words the decoder rejects,
the lowest slot of a decoded instruction that cannot be resolved, and the step's record over both. -/

namespace Sys2Proof.Proofs.FaultTable

open Sys2Proof.Machine Sys2Proof.Rules
open Sys2Proof.Proofs.DecodeFaults Sys2Proof.Proofs.Pseudocode

variable {s t : State} {w : Word} {i : Instr}

/-! ### The words that do not decode -/

/-- A word that is negative or whose opcode is undefined (rules R94, R95). -/
def IsUnknown (w : Word) : Prop := w.toInt < 0 ∨ op w ∉ opcodes

/-- A word with a defined opcode that is too long, or reserved in the digit of a used slot (rules R96, R97). -/
def IsReserved (w : Word) : Prop :=
  0 ≤ w.toInt ∧ op w ∈ opcodes ∧ (w.toInt > 99999 ∨ ∃ k < arity (op w), dig w (k + 2) > 2)

/-- A word at fault in nothing but its immediate destination (rule R98). -/
def IsUnsettable (w : Word) : Prop :=
  0 ≤ w.toInt ∧ w.toInt ≤ 99999 ∧ op w ∈ opcodes ∧ (∀ k < arity (op w), dig w (k + 2) ≤ 2) ∧
    ∃ k, writeSlot (op w) = some k ∧ dig w (k + 2) = 1

/-- An integer of at most two digits is a word value (rule R11). -/
theorem wrap64_toInt_of_twoDigits {z : Int} (lo : -99 ≤ z) (hi : z ≤ 99) : (wrap64 z).toInt = z :=
  wrap64_toInt_of_range (le_trans (by decide) lo) (le_trans hi (by decide))

/-- The value UnknownOperation records is the opcode, with the sign of the word (rules R94, R95). -/
theorem decode_of_isUnknown (h : IsUnknown w) : ∃ v, decode w = .error (.unknownOperation v) ∧
    v.toInt = if w.toInt < 0 then trem w.toInt 100 else op w := by
  by_cases neg : w.toInt < 0
  · obtain ⟨lo, hi⟩ := trem_range_of_neg neg
    refine ⟨_, decode_negative neg, ?_⟩
    rw [if_pos neg, wrap64_toInt_of_twoDigits lo (by omega)]
  · have lo : 0 ≤ op w := Int.emod_nonneg _ (by decide)
    have hi : op w < 100 := Int.emod_lt_of_pos _ (by decide)
    refine ⟨_, decode_undefined (not_lt.mp neg) (h.resolve_left neg), ?_⟩
    rw [if_neg neg, wrap64_toInt_of_twoDigits (by omega) (by omega)]

theorem decode_of_isReserved (h : IsReserved w) : decode w = .error (.reservedEncoding w) := by
  obtain ⟨h0, ho, hr⟩ := h
  exact decode_reserved h0 ho hr

theorem writeSlot_eq_pseudoWSlot (o : Nat) : writeSlot o = pseudoWSlot o := by
  simp only [writeSlot, pseudoWSlot, List.mem_cons, List.not_mem_nil, or_false]
  norm_cast

/-- The digits name an immediate destination exactly when they name an ill-formed instruction (rule R88). -/
theorem exists_immediateDest_iff (h0 : 0 ≤ w.toInt) (ho : op w = i.opcode) (hd : ModeDigits w.toNat i) :
    (∃ k, writeSlot (op w) = some k ∧ dig w (k + 2) = 1) ↔ ¬ i.wellFormed = true := by
  rw [ho, writeSlot_eq_pseudoWSlot]
  cases hw : pseudoWSlot i.opcode with
  | none => simp [wellFormed_of_pseudoWSlot_none hw]
  | some k =>
    obtain ⟨m, hm, wf⟩ := wellFormed_of_pseudoWSlot_some hw
    have digit_one : dig w (k + 2) = 1 ↔ ¬ m.settable = true := by
      rw [dig_eq_digit h0, hd k m hm]
      cases m <;> decide
    rw [wf, ← digit_one]
    exact ⟨fun ⟨_, rfl, h⟩ => h, fun h => ⟨k, rfl, h⟩⟩

/-- A word of at most five digits, none of them reserved, is rejected only for its destination. -/
theorem decode_of_not_reserved (h0 : 0 ≤ w.toInt) (h5 : w.toInt ≤ 99999) (ho : op w ∈ opcodes)
    (digits : ∀ k < arity (op w), dig w (k + 2) ≤ 2) :
    ∃ i, decode w = (if i.wellFormed then .ok i else .error (.unsupportedWrite w)) ∧
      ((∃ k, writeSlot (op w) = some k ∧ dig w (k + 2) = 1) ↔ ¬ i.wellFormed = true) := by
  obtain ⟨f, hf⟩ := exists_formatOf h0 ho
  have natDigits (k : Nat) (hk : k < pseudoArity (w.toNat % 100)) : digit w.toNat (k + 2) ≤ 2 := by
    rw [← arity_eq_pseudoArity, ← op_eq_toNat_mod h0] at hk
    have := digits k hk
    rw [dig_eq_digit h0] at this
    exact_mod_cast this
  obtain ⟨i, hi, hd, e⟩ := decodeModes_of_not_reserved (w := w) (formatOf_fits hf) natDigits
  have hop : op w = i.opcode := by rw [op_eq_toNat_mod h0, hi]
  exact ⟨i, (decode_eq_decodeModes h0 h5 hf).trans e, exists_immediateDest_iff h0 hop hd⟩

theorem decode_of_isUnsettable (h : IsUnsettable w) : decode w = .error (.unsupportedWrite w) := by
  obtain ⟨h0, h5, ho, digits, dest⟩ := h
  obtain ⟨i, hi, wf⟩ := decode_of_not_reserved h0 h5 ho digits
  rw [hi, if_neg (wf.mp dest)]

/-- Every other word decodes. -/
theorem exists_decode_of_legal (hu : ¬ IsUnknown w) (hr : ¬ IsReserved w) (hw : ¬ IsUnsettable w) :
    ∃ i, decode w = .ok i := by
  simp only [IsUnknown, not_or, not_lt, not_not] at hu
  obtain ⟨h0, ho⟩ := hu
  simp only [IsReserved, h0, ho, true_and, not_or, not_exists, not_and, not_lt, gt_iff_lt] at hr
  obtain ⟨h5, digits⟩ := hr
  obtain ⟨i, hi, wf⟩ := decode_of_not_reserved h0 h5 ho digits
  have wellFormed : i.wellFormed = true := not_not.mp fun c => hw ⟨h0, h5, ho, digits, wf.mpr c⟩
  exact ⟨i, hi.trans (if_pos wellFormed)⟩

/-! ### The slots that cannot be resolved -/

/-- Every slot below `k` can be resolved. -/
def ClearBelow (s : State) (i : Instr) (k : Nat) : Prop := ∀ j : Fin 3, (j : Nat) < k → ¬ slotFaults s i j

/-- What the slots of an executed instruction decide: all of them resolve and no fault is recorded, or the lowest that
does not is (rules R115, R190). -/
inductive SlotOutcome (i : Instr) (s : State) : State → Prop
  | clear (t : State) : (∀ k, ¬ slotFaults s i k) → t.fcause = s.fcause → SlotOutcome i s t
  | faulted (k : Fin 3) : slotFaults s i k → ClearBelow s i k → SlotOutcome i s (faultedWith s (invalid k))

theorem slotFaults_iff_writeAddr {k : Fin 3} {m : Mode} (hm : i.modes[(k : Nat)]? = some m)
    (hw : pseudoWSlot i.opcode = some (k : Nat)) : slotFaults s i k ↔ ∃ r, s.writeAddr k m = .error r := by
  simp only [slotFaults, hm, writeSlot_eq_pseudoWSlot, hw, if_true, Option.some.injEq, exists_eq_left']

theorem slotFaults_iff_readOperand {k : Fin 3} {m : Mode} (hm : i.modes[(k : Nat)]? = some m)
    (hw : pseudoWSlot i.opcode ≠ some (k : Nat)) : slotFaults s i k ↔ ∃ r, s.readOperand k m = .error r := by
  simp only [slotFaults, hm, writeSlot_eq_pseudoWSlot, hw, if_false, Option.some.injEq, exists_eq_left']

theorem ClearBelow.succ {k : Fin 3} (below : ClearBelow s i k) (at_k : ¬ slotFaults s i k) : ClearBelow s i (k + 1) :=
  fun j hj => (Nat.lt_succ_iff_lt_or_eq.mp hj).elim (below j) fun e => Fin.ext e ▸ at_k

/-- Only the slots an instruction uses can fault. -/
theorem ClearBelow.all (below : ClearBelow s i i.modes.length) (k : Fin 3) : ¬ slotFaults s i k := by
  intro h
  have ⟨_, hm, _⟩ := h
  obtain ⟨hk, -⟩ := List.getElem?_eq_some_iff.mp hm
  exact below k hk h

/-- Resolving one slot: its fault is taken with the slots below it clear, or it joins them. -/
theorem slotOutcome_resolved {α : Type} {k : Fin 3} {x : Except Raise α} {K : α → Result}
    (faults : slotFaults s i k ↔ ∃ r, x = .error r) (raised : ∀ r, x = .error r → r = invalid k)
    (below : ClearBelow s i k) (next : ∀ v, ClearBelow s i (k + 1) → ∃ t, K v = .next t ∧ SlotOutcome i s t) :
    ∃ t, resolved s x K = .next t ∧ SlotOutcome i s t := by
  refine resolved_next (fun v hv => next v (below.succ fun c => ?_)) fun r hr => ?_
  · obtain ⟨r, hr⟩ := faults.mp c
    cases hv.symm.trans hr
  · obtain rfl := raised r hr
    exact .faulted k (faults.mpr ⟨_, hr⟩) below

theorem modes_length_le (i : Instr) : i.modes.length ≤ 3 := by cases i <;> simp [Instr.modes]

/-- Line 7 of rule R111 from slot `k` on, by induction on the slots still to come. -/
theorem slotOutcome_pseudoResolve {n : Nat} {K : PseudoOperands → Result} (wf : i.wellFormed = true)
    (hd : ModeDigits n i) (retired : ∀ args, ∃ t, K args = .next t ∧ t.fcause = s.fcause) (l k : Nat)
    (acc : PseudoOperands) (hl : k + l = i.modes.length) (below : ClearBelow s i k) :
    ∃ t, resolved s (pseudoResolve s n i.opcode l k acc) K = .next t ∧ SlotOutcome i s t := by
  induction l generalizing k acc with
  | zero =>
    obtain ⟨t, ht, keeps⟩ := retired acc
    exact ⟨t, ht, .clear t (ClearBelow.all (hl ▸ below)) keeps⟩
  | succ l ih =>
    have hk : k < i.modes.length := by omega
    obtain ⟨m, hm⟩ : ∃ m, i.modes[k]? = some m := ⟨_, List.getElem?_eq_getElem hk⟩
    let j : Fin 3 := ⟨k, hk.trans_le (modes_length_le i)⟩
    have rest (acc : PseudoOperands) (c : ClearBelow s i (k + 1)) := ih (k + 1) acc (by omega) c
    by_cases hw : pseudoWSlot i.opcode = some k
    · obtain ⟨m', hm', wf'⟩ := wellFormed_of_pseudoWSlot_some hw
      obtain rfl : m = m' := Option.some.inj (hm.symm.trans hm')
      have settable : m.settable = true := wf' ▸ wf
      rw [resolved_pseudoResolve_write j rfl hw (hd k m hm) settable]
      exact slotOutcome_resolved (slotFaults_iff_writeAddr hm hw) (fun _ => State.writeAddr_error settable) below
        fun _ => rest _
    · rw [resolved_pseudoResolve_read j rfl hw (hd k m hm)]
      exact slotOutcome_resolved (slotFaults_iff_readOperand hm hw) (fun _ => State.readOperand_error) below
        fun _ => rest _

/-- Lines 8 to 11 of rule R111 record no fault. -/
theorem pseudoFinish_fcause (s : State) (o : Nat) (args : PseudoOperands) :
    (pseudoFinish s o args).1.fcause = s.fcause := by
  unfold pseudoFinish
  split
  · rfl
  · exact (State.commitPc_fcause _ _).trans (pseudoExecute_fcause s o _ _)

/-- What the slots decide of a decoded instruction's execution. -/
theorem slotOutcome_of_exec (h : decode w = .ok i) (he : exec i s = .next t) : SlotOutcome i s t := by
  have wf := decode_wellFormed h
  have hd := modeDigits_of_decode h
  obtain ⟨u, hu, outcome⟩ := slotOutcome_pseudoResolve (s := s) wf hd
    (fun args => ⟨_, rfl, pseudoFinish_fcause s i.opcode args⟩) i.modes.length 0 ⟨[], none⟩ (Nat.zero_add _)
    fun _ h => absurd h (Nat.not_lt_zero _)
  rw [← pseudoArity_opcode] at hu
  cases he.symm.trans ((exec_eq_pseudoRun hd wf).trans hu)
  exact outcome

/-! ### The record after a step of a Running core -/

/-- The rows of rule R190's table, and the row without a fault: the cause, the value, and when they are recorded. -/
inductive FaultRow (s : State) : FaultCause → Word → Prop
  | unknown (v : Word) : IsUnknown s.instrWord →
      v.toInt = (if s.instrWord.toInt < 0 then trem s.instrWord.toInt 100 else op s.instrWord) →
      FaultRow s .unknownOperation v
  | reserved : IsReserved s.instrWord → FaultRow s .reservedEncoding s.instrWord
  | unsettable : IsUnsettable s.instrWord → FaultRow s .unsupportedWrite s.instrWord
  | address (i : Instr) (k : Fin 3) : decode s.instrWord = .ok i → slotFaults s i k → ClearBelow s i k →
      FaultRow s .invalidAddress (wrap64 ((k : Nat) : Int))
  | noFault (v : Word) : FaultRow s .none v

section Step

variable (run : Running s) (h : step s = .next t)
include run h

theorem eq_faultedWith_of_decode_error {e : DecodeError} (he : decode s.instrWord = .error e) :
    t = faultedWith s (raiseOfDecode e) := by
  cases h.symm.trans (step_of_decode_error run he)
  rfl

theorem slotOutcome_of_step (hi : decode s.instrWord = .ok i) : SlotOutcome i s t := by
  obtain ⟨f, r⟩ := run
  exact slotOutcome_of_exec hi ((step_decoded (not_not_intro f) r hi).symm.trans h)

/-- The record a step leaves is a row of the table. -/
theorem faultRow_of_step : FaultRow s t.fcause t.fval := by
  by_cases hu : IsUnknown s.instrWord
  · obtain ⟨v, hv, value⟩ := decode_of_isUnknown hu
    rw [eq_faultedWith_of_decode_error run h hv]
    exact .unknown v hu value
  by_cases hr : IsReserved s.instrWord
  · rw [eq_faultedWith_of_decode_error run h (decode_of_isReserved hr)]
    exact .reserved hr
  by_cases hw : IsUnsettable s.instrWord
  · rw [eq_faultedWith_of_decode_error run h (decode_of_isUnsettable hw)]
    exact .unsettable hw
  obtain ⟨i, hi⟩ := exists_decode_of_legal hu hr hw
  cases slotOutcome_of_step run h hi with
  | clear _ _ keeps =>
    rw [keeps, run.1]
    exact .noFault _
  | faulted k fault below => exact .address i k hi fault below

theorem fcause_of_isUnknown (hu : IsUnknown s.instrWord) : t.fcause = .unknownOperation := by
  obtain ⟨v, hv, -⟩ := decode_of_isUnknown hu
  rw [eq_faultedWith_of_decode_error run h hv]
  rfl

theorem fcause_of_isReserved (hr : IsReserved s.instrWord) : t.fcause = .reservedEncoding := by
  rw [eq_faultedWith_of_decode_error run h (decode_of_isReserved hr)]
  rfl

theorem fcause_of_isUnsettable (hw : IsUnsettable s.instrWord) : t.fcause = .unsupportedWrite := by
  rw [eq_faultedWith_of_decode_error run h (decode_of_isUnsettable hw)]
  rfl

theorem fcause_of_slotFaults {k : Fin 3} (hi : decode s.instrWord = .ok i) (fault : slotFaults s i k) :
    t.fcause = .invalidAddress := by
  cases slotOutcome_of_step run h hi with
  | clear _ clear _ => exact absurd fault (clear k)
  | faulted => rfl

end Step

theorem FaultRow.isUnknown {v : Word} : FaultRow s .unknownOperation v → IsUnknown s.instrWord ∧
    v.toInt = if s.instrWord.toInt < 0 then trem s.instrWord.toInt 100 else op s.instrWord
  | .unknown _ hu value => ⟨hu, value⟩

theorem FaultRow.isReserved {v : Word} : FaultRow s .reservedEncoding v → IsReserved s.instrWord ∧ v = s.instrWord
  | .reserved hr => ⟨hr, rfl⟩

theorem FaultRow.isUnsettable {v : Word} : FaultRow s .unsupportedWrite v → IsUnsettable s.instrWord ∧ v = s.instrWord
  | .unsettable hw => ⟨hw, rfl⟩

theorem FaultRow.exists_lowest_slot {v : Word} : FaultRow s .invalidAddress v → ∃ i k,
    decode s.instrWord = .ok i ∧ slotFaults s i k ∧ (∀ j < k, ¬ slotFaults s i j) ∧ v = wrap64 ((k : Nat) : Int)
  | .address i k hi fault below => ⟨i, k, hi, fault, below, rfl⟩

/-- Settles O19: the record after the step is a row of the table, and each row's condition puts it there. -/
theorem fourFaultsExactly : Obligations.FourFaultsExactly := by
  intro s t run h
  have row := faultRow_of_step run h
  have unknown (c : t.fcause = .unknownOperation) := (c ▸ row).isUnknown
  have reserved (c : t.fcause = .reservedEncoding) := (c ▸ row).isReserved
  have unsettable (c : t.fcause = .unsupportedWrite) := (c ▸ row).isUnsettable
  have address (c : t.fcause = .invalidAddress) := (c ▸ row).exists_lowest_slot
  refine ⟨⟨fun c => (unknown c).1, fcause_of_isUnknown run h⟩, fun c => (unknown c).2,
    ⟨fun c => (reserved c).1, fcause_of_isReserved run h⟩, ⟨fun c => (unsettable c).1, fcause_of_isUnsettable run h⟩,
    fun c => c.elim (fun c => (reserved c).2) fun c => (unsettable c).2, ⟨fun c => ?_, ?_⟩, address⟩
  · obtain ⟨i, k, hi, fault, -, -⟩ := address c
    exact ⟨i, k, hi, fault⟩
  · rintro ⟨i, k, hi, fault⟩
    exact fcause_of_slotFaults run h hi fault

end Sys2Proof.Proofs.FaultTable
end

section
/-! What `RESET` leaves (rules R230 to R236): what the port answers to an image that fits, and what every cell holds
after it. -/

namespace Sys2Proof.Proofs.Reset

open Sys2Proof.Machine

variable {s : State} {image : List Word}

theorem hostAct_reset_of_fits (h : image.length ≤ (s.addrMax : Nat) + 1) :
    hostAct (.reset image) s = (s.load image, .done) := if_pos h

/-- The memory is written anew from the empty one, so a cell beyond the image holds 0, whatever it held before (rules
R35, R235). -/
theorem load_read (s : State) (image : List Word) (a : Nat) : (s.load image).mem.read a = image.getD a 0 := by
  have emptyWf : Memory.wf [] := ⟨.nil, nofun⟩
  rw [State.load_mem, Memory.read_writeAll image 0 a emptyWf]
  split
  case isTrue => rfl
  case isFalse beyond => exact (List.getD_eq_default _ _ (by omega)).symm

/-- Settles O48: the image fits, so the port loads it; the cells are the image's, the registers those of `load`. -/
theorem resetLeaves : Obligations.ResetLeaves := fun s image fits =>
  ⟨s.load image, hostAct_reset_of_fits fits, State.load_rb s image, load_read s image, State.load_fcause s image,
    State.load_fval s image, State.load_fpc s image⟩

end Sys2Proof.Proofs.Reset
end

section
/-! The ALU's wrapped results (rule R140) and the pointer update (rule R150), as integers. -/

namespace Sys2Proof.Proofs.Numbers

open Sys2Proof.Machine

/-- Every word is a word value (rules R8, R11). -/
theorem isWordValue_toInt (w : Word) : isWordValue w.toInt :=
  ⟨BitVec.le_toInt w, Int.le_of_lt_add_one BitVec.toInt_lt⟩

/-- `wrap64` keeps the residue modulo 2^64 (rule R11). -/
theorem wrap64_toInt_emod (z : Int) : (wrap64 z).toInt % 2 ^ 64 = z % 2 ^ 64 := by
  rw [wrap64, BitVec.toInt_ofInt]
  exact Int.bmod_emod

/-- The integers an address or a canonical word can be are word values. -/
theorem wrap64_toInt_of_nonneg {z : Int} (lo : 0 ≤ z) (hi : z < 2 ^ 63) : (wrap64 z).toInt = z :=
  wrap64_toInt_of_range (le_trans (by decide) lo) (Int.le_of_lt_add_one hi)

theorem wrap64_toInt_of_isWordValue {z : Int} (h : isWordValue z) : (wrap64 z).toInt = z := by
  obtain ⟨lo, hi⟩ := h
  exact wrap64_toInt_of_range lo hi

/-- Settles O53: both functions wrap the exact result. -/
theorem aluWrapsExactResult : Obligations.AluWrapsExactResult := fun _ _ =>
  ⟨isWordValue_toInt _, isWordValue_toInt _, wrap64_toInt_emod _, wrap64_toInt_emod _, wrap64_toInt_of_isWordValue,
    wrap64_toInt_of_isWordValue⟩

/-- Settles O55: inside `[0, MLEN)` the successor is a word value, outside it the pointer becomes `HALT_PC`. -/
theorem commitPcKeepsOrHalts : Obligations.CommitPcKeepsOrHalts := by
  intro s npc bound
  have hmax := s.addrMax.isLt
  refine ⟨(s.commitPc npc).pc, s.commitPc_eq npc, fun lo hi => ?_, fun outside => ?_⟩
  · rw [State.commitPc_pc, if_pos ⟨lo, hi⟩]
    exact wrap64_toInt_of_nonneg lo (by omega)
  · rw [State.commitPc_pc, if_neg (by omega), haltPc_toInt]

end Sys2Proof.Proofs.Numbers
end

section
/-! The canonical words (rule R106): their value, their digits, and the list of all of them; and which words decode at
all (rules R81, R99, R105). -/

namespace Sys2Proof.Proofs.Encoding

open Sys2Proof.Machine Sys2Proof.Rules Sys2Proof.Proofs.LegalWords Sys2Proof.Proofs.Numbers

variable {w : Word} {i : Instr}

/-! ### The value of a canonical word -/

/-- The mode digits are a decimal numeral, its lowest digit first, that stands from weight `10^(k+2)` on. -/
theorem modesValue_eq_ofDigits (ms : List Mode) (k : Nat) :
    modesValue ms k = 10 ^ (k + 2) * Nat.ofDigits 10 (ms.map Mode.toDigit) := by
  induction ms generalizing k with
  | nil => rfl
  | cons m ms ih =>
    rw [modesValue, ih, List.map_cons, Nat.ofDigits_cons]
    ring

theorem encodeNat_eq_ofDigits (i : Instr) :
    encodeNat i = i.opcode + 10 ^ 2 * Nat.ofDigits 10 (i.modes.map Mode.toDigit) :=
  congrArg (i.opcode + ·) (modesValue_eq_ofDigits i.modes 0)

theorem modesValue_eq_sum (ms : List Mode) (k : Nat) :
    modesValue ms k = (ms.mapIdx fun j m => m.toDigit * 10 ^ (j + k + 2)).sum := by
  induction ms generalizing k with
  | nil => rfl
  | cons m ms ih => simp only [modesValue, ih, List.mapIdx_cons, List.sum_cons, Nat.zero_add, Nat.add_assoc,
      Nat.add_comm 1]

/-- The greatest canonical word is that of EQ with three relative operands: HLT has no mode digits (rule R106). -/
theorem encodeNat_le (i : Instr) : encodeNat i ≤ 22208 := by
  cases i with
  | add a b c | mul a b c | lt a b c | eq a b c =>
    have ha := a.toDigit_le
    have hb := b.toDigit_le
    have hc := c.toDigit_le
    simp only [encodeNat, Instr.opcode, Instr.modes, modesValue]
    omega
  | jnz a b | jz a b =>
    have ha := a.toDigit_le
    have hb := b.toDigit_le
    simp only [encodeNat, Instr.opcode, Instr.modes, modesValue]
    omega
  | inp a | out a | arb a =>
    have ha := a.toDigit_le
    simp only [encodeNat, Instr.opcode, Instr.modes, modesValue]
    omega
  | hlt => decide

theorem encode_toInt (i : Instr) : (encode i).toInt = (encodeNat i : Int) := by
  have hi := encodeNat_le i
  exact wrap64_toInt_of_nonneg (Int.natCast_nonneg _) (by omega)

/-! ### The digits of a canonical word -/

theorem opcode_pos_and_lt (i : Instr) : 0 < i.opcode ∧ i.opcode < 100 := by
  cases i <;> simp [Instr.opcode]

/-- The digit of weight `10^k` of a numeral is its digit number `k`. -/
theorem ofDigits_modes_digit {ms : List Mode} {k : Nat} {m : Mode} (hm : ms[k]? = some m) :
    Nat.ofDigits 10 (ms.map Mode.toDigit) / 10 ^ k % 10 = m.toDigit := by
  have small (d : Nat) (hd : d ∈ ms.map Mode.toDigit) : d < 10 := by
    obtain ⟨m, -, rfl⟩ := List.mem_map.mp hd
    have := m.toDigit_le
    omega
  have := m.toDigit_le
  obtain ⟨hk, rfl⟩ := List.getElem?_eq_some_iff.mp hm
  rw [Nat.ofDigits_div_pow_eq_ofDigits_drop k (by decide) _ small, ← List.map_drop, List.drop_eq_getElem_cons hk,
    List.map_cons, Nat.ofDigits_cons, Nat.add_mul_mod_self_left, Nat.mod_eq_of_lt (by omega)]

/-- The opcode fills the two places below the mode digits, and each mode digit stands in its own (rule R81). -/
theorem digit_encodeNat {k : Nat} {m : Mode} (hm : i.modes[k]? = some m) :
    digit (encodeNat i) (k + 2) = m.toDigit := by
  obtain ⟨-, hop⟩ := opcode_pos_and_lt i
  rw [digit, encodeNat_eq_ofDigits, Nat.add_comm k 2, pow_add, ← Nat.div_div_eq_div_mul,
    Nat.add_mul_div_left _ _ (by decide), Nat.div_eq_of_lt (b := 10 ^ 2) hop, Nat.zero_add, ofDigits_modes_digit hm]

theorem legalWord_encode (i : Instr) : legalWord (encode i) i.opcode := by
  obtain ⟨-, hop⟩ := opcode_pos_and_lt i
  have hi := encodeNat_le i
  have hn := encodeNat_eq_ofDigits i
  rw [legalWord, op, encode_toInt]
  omega

/-- Decoding the canonical word of a well-formed instruction gives it back. -/
theorem decode_encode (wf : i.wellFormed = true) : decode (encode i) = .ok i := by
  refine decode_eq_ok_iff.mpr ⟨wf, legalWord_encode i, fun k m hm => ?_⟩
  rw [← digit_encodeNat hm, dig, digit, encode_toInt]
  norm_cast

/-! ### The legal words -/

/-- Settles O2: what the decoder reads of a word is its length, its opcode and the digits of the used slots. -/
theorem legalWordsExactly : Obligations.LegalWordsExactly := fun _ _ => decode_eq_ok_iff

/-- Settles O6: the decoder evaluated on the words of the table. -/
theorem exampleWordsDecode : Obligations.ExampleWordsDecode := by
  unfold Obligations.ExampleWordsDecode
  decide

/-- No opcode is 00, so 0 is no legal word. -/
theorem toInt_range_of_decode (h : decode w = .ok i) : 1 ≤ w.toInt ∧ w.toInt ≤ 99999 := by
  obtain ⟨-, ⟨h0, h5, ho⟩, -⟩ := decode_eq_ok_iff.mp h
  obtain ⟨hop, -⟩ := opcode_pos_and_lt i
  rw [op] at ho
  omega

/-! ### The list of the canonical words -/

def allModes : List Mode := [.position, .immediate, .relative]

def settableModes : List Mode := [.position, .relative]

/-- The well-formed instructions, format by format (rules R85, R88). -/
def wellFormedInstrs : List Instr :=
  ([Instr.add, Instr.mul, Instr.lt, Instr.eq].flatMap fun mk =>
    allModes.flatMap fun a => allModes.flatMap fun b => settableModes.map (mk a b)) ++
  ([Instr.jnz, Instr.jz].flatMap fun mk => allModes.flatMap fun a => allModes.map (mk a)) ++
  settableModes.map .inp ++ allModes.map .out ++ allModes.map .arb ++ [.hlt]

theorem mem_allModes (m : Mode) : m ∈ allModes := by cases m <;> decide

theorem mem_settableModes {m : Mode} : m ∈ settableModes ↔ m.settable = true := by cases m <;> decide

theorem mem_wellFormedInstrs : i ∈ wellFormedInstrs ↔ i.wellFormed = true := by
  cases i <;> simp [wellFormedInstrs, Instr.wellFormed, mem_allModes, mem_settableModes]

/-- Settles O1: the value, the digits and the bounds of a canonical word, and the count over the formats. -/
theorem canonicalWordsRoundTrip : Obligations.CanonicalWordsRoundTrip := by
  refine ⟨fun i wf => ?_, fun _ _ => toInt_range_of_decode, by decide, by decide, by decide,
    wellFormedInstrs, by decide, by decide, fun _ => mem_wellFormedInstrs⟩
  have value : encodeNat i = i.opcode + (i.modes.mapIdx fun k m => m.toDigit * 10 ^ (k + 2)).sum :=
    congrArg (i.opcode + ·) (modesValue_eq_sum i.modes 0)
  have decoded := decode_encode wf
  obtain ⟨pos, -⟩ := toInt_range_of_decode decoded
  refine ⟨?_, decoded, pos, ?_⟩
  · rw [encode_toInt, value, Nat.cast_add]
  · rw [encode_toInt]
    exact_mod_cast encodeNat_le i

end Sys2Proof.Proofs.Encoding
end

section
/-! What an execution and a step change, field by field, read off the outcomes once: the fault record, the memory and
the channels (rules R122, R123, R160, R161); and the statements about a step that follow. -/

namespace Sys2Proof.Proofs.StepChanges

open Sys2Proof.Machine Sys2Proof.Rules
open Sys2Proof.Proofs.RunState Sys2Proof.Proofs.StepReport Sys2Proof.Proofs.Arithmetic
open Sys2Proof.Proofs.ControlFlow
open Sys2Proof.Proofs.Pseudocode (raiseOfDecode_cause)

variable {s t : State} {i : Instr} {r : Raise}

/-! ### The fault record -/

theorem cause_of_execFault (h : ExecFault i s r) : r.cause ≠ .none := by cases h <;> exact nofun

/-- An execution takes a fault, which changes the record alone, or it leaves the record (rule R123). -/
theorem execOutcome_record (h : ExecOutcome i s t) : (∃ r, ExecFault i s r ∧ t = s.raise r) ∨ sameRecord s t := by
  cases h with
  | faulted r fault => exact .inl ⟨r, fault, rfl⟩
  | waited => exact .inr ⟨rfl, rfl, rfl⟩
  | stored | took | output | jumped | adjusted | stopped => exact .inr (by simp [sameRecord])

/-- The faults a step of a Running core can take: its word does not decode, or its execution raises one. -/
def StepFault (s : State) (r : Raise) : Prop :=
  (∃ e, decode s.instrWord = .error e ∧ r = raiseOfDecode e) ∨ ∃ i, decode s.instrWord = .ok i ∧ ExecFault i s r

theorem cause_of_stepFault (h : StepFault s r) : r.cause ≠ .none := by
  obtain ⟨e, -, rfl⟩ | ⟨i, -, fault⟩ := h
  · exact raiseOfDecode_cause e
  · exact cause_of_execFault fault

/-- A step takes a fault of a Running core, which changes the record alone, or it leaves the record. -/
theorem stepOutcome_record (h : StepOutcome s t) :
    (Running s ∧ ∃ r, StepFault s r ∧ t = s.raise r) ∨ sameRecord s t := by
  cases h with
  | terminal | lineThree => exact .inr ⟨rfl, rfl, rfl⟩
  | decodeFault e f r he => exact .inl ⟨⟨not_not.mp f, r⟩, _, .inl ⟨e, he, rfl⟩, rfl⟩
  | executed i _ f r hi _ outcome =>
    refine (execOutcome_record outcome).imp_left ?_
    rintro ⟨e, fault, rfl⟩
    exact ⟨⟨not_not.mp f, r⟩, e, .inr ⟨i, hi, fault⟩, rfl⟩

/-- Settles O18: a step that enters Faulted is one that takes a fault, and that changes the record alone. -/
theorem faultsArePrecise : Obligations.FaultsArePrecise := by
  intro s t clear h faulted
  obtain ⟨⟨-, r⟩, e, -, rfl⟩ | ⟨same, -, -⟩ := stepOutcome_record (step_outcome h)
  · exact ⟨rfl, rfl, r.1, r.2, report_of_faulted h faulted⟩
  · exact absurd (same.trans clear) faulted

/-! ### Memory -/

/-- `t` has the memory of `s`, or that memory after one store at a valid address (rules R58, R59). -/
def AtMostOneStore (s t : State) : Prop :=
  (t.mem = s.mem ∧ t.mlen = s.mlen) ∨
  ∃ d v, d ≤ (s.addrMax : Nat) ∧ t.mem = s.mem.write d v ∧ t.mlen = (s.memWrite d v).mlen

theorem execOutcome_atMostOneStore (h : ExecOutcome i s t) : AtMostOneStore s t := by
  cases h with
  | faulted | waited => exact .inl ⟨rfl, rfl⟩
  | output | jumped | adjusted | stopped => exact .inl (by simp)
  | stored f a b dest va vb d _ _ _ hd => exact .inr ⟨d, f va vb, State.writeAddr_valid hd, by simp, by simp⟩
  | took dest d x rest _ _ hd => exact .inr ⟨d, x, State.writeAddr_valid hd, by simp, by simp⟩

theorem stepOutcome_atMostOneStore (h : StepOutcome s t) : AtMostOneStore s t := by
  cases h with
  | terminal | lineThree | decodeFault => exact .inl ⟨rfl, rfl⟩
  | executed _ _ _ _ _ _ outcome => exact execOutcome_atMostOneStore outcome

theorem execOutcome_addrMax (h : ExecOutcome i s t) : t.addrMax = s.addrMax := by
  cases h with
  | faulted | waited => rfl
  | stored | took | output | jumped | adjusted | stopped => simp

theorem stepOutcome_addrMax (h : StepOutcome s t) : t.addrMax = s.addrMax := by
  cases h with
  | terminal | lineThree | decodeFault => rfl
  | executed _ _ _ _ _ _ outcome => exact execOutcome_addrMax outcome

/-! ### The channels -/

/-- Only an IN that finds a word changes `INQ` (rule R160). -/
theorem execOutcome_inq (h : ExecOutcome i s t) : t.inq = s.inq ∨ ∃ dest x, i = .inp dest ∧ s.inq = x :: t.inq := by
  cases h with
  | faulted | waited => exact .inl rfl
  | took dest d x rest hi _ _ hq => exact .inr ⟨dest, x, hi, by simp [hq]⟩
  | stored | output | jumped | adjusted | stopped => exact .inl (by simp)

/-- Only an OUT whose operand resolved changes `OUTQ` (rule R161). -/
theorem execOutcome_outq (h : ExecOutcome i s t) :
    t.outq = s.outq ∨ ∃ a v, i = .out a ∧ s.readOperand 0 a = .ok v ∧ t.outq = s.outq ++ [v] := by
  cases h with
  | faulted | waited => exact .inl rfl
  | output a v hi hv => exact .inr ⟨a, v, hi, hv, by simp⟩
  | stored | took | jumped | adjusted | stopped => exact .inl (by simp)

/-- Settles O42: outside an execution a step leaves the channels. -/
theorem channelsMoveOnlyByInAndOut : Obligations.ChannelsMoveOnlyByInAndOut := by
  intro s t h
  cases step_outcome h with
  | terminal | lineThree | decodeFault => exact ⟨.inl rfl, .inl rfl⟩
  | executed i _ f r hi _ outcome =>
    have run : Running s := ⟨not_not.mp f, r⟩
    refine ⟨(execOutcome_inq outcome).imp_right ?_, (execOutcome_outq outcome).imp_right ?_⟩
    · rintro ⟨dest, x, rfl, hq⟩
      exact ⟨dest, x, run, hi, hq⟩
    · rintro ⟨a, v, rfl, hv, hq⟩
      exact ⟨a, v, run, hi, hv, hq⟩

/-! ### The one effect of a step -/

/-- Line 3 of rule R111: a `pc` outside `[0, MLEN)` becomes −1. -/
theorem step_outOfRange (f : ¬ s.isFaulted) (outside : ¬ s.pcInRange) (notHalted : s.pc ≠ Config.haltPc) :
    step s = .next { s with pc := Config.haltPc } := by
  unfold step cycle
  rw [if_neg f, if_neg notHalted, if_pos outside]

/-- Settles O11: every outcome of an execution and of a step is a next state. -/
theorem stepNeverStops : Obligations.StepNeverStops :=
  ⟨fun s => (step_cases s).imp fun _ => And.left, fun i s => (exec_cases i s).imp fun _ => And.left⟩

/-- Settles O7: the fetch reads the cell at `pc`, and a Running core passes lines 1 to 3 of rule R111. -/
theorem stepRunsDecodedInstruction : Obligations.StepRunsDecodedInstruction := fun _ _ ⟨f, r⟩ h =>
  step_decoded (not_not_intro f) r h

theorem retires_of_isRRW {f : Word → Word → Word} {a b dest : Mode} {va vb : Word} {d : Nat}
    (h : IsRRW i f a b dest) (ha : s.readOperand 0 a = .ok va) (hb : s.readOperand 1 b = .ok vb)
    (hd : s.writeAddr 2 dest = .ok d) : retires i s (stored s d (f va vb) (s.pc.toInt + 4)) := by
  cases h with
  | add | mul => exact ⟨va, vb, d, ha, hb, hd, rfl⟩
  | lt => exact ⟨va, vb, d, ha, hb, hd, congrArg (stored s d · _) (aluLess_eq va vb)⟩
  | eq => exact ⟨va, vb, d, ha, hb, hd, congrArg (stored s d · _) (aluEqual_eq va vb)⟩

theorem retires_of_isJump {p : Word → Bool} {a b : Mode} {va vb : Word} (h : IsJump i p a b)
    (ha : s.readOperand 0 a = .ok va) (hb : s.readOperand 1 b = .ok vb) :
    retires i s (moved s (if p va then vb.toInt else s.pc.toInt + 3)) := by
  cases h with
  | jnz => exact ⟨va, vb, ha, hb, by simp only [isNonzero_eq_true_iff]⟩
  | jz => exact ⟨va, vb, ha, hb, by simp only [not_isNonzero_eq_true_iff]⟩

/-- The outcomes of an execution in the statements' words: the one effect of the instruction, a fault, or a wait. -/
theorem execOutcome_retires (h : ExecOutcome i s t) : retires i s t ∨
    (∃ r, r.cause ≠ .none ∧ t = faultedWith s r) ∨
    (∃ dest d, i = .inp dest ∧ s.writeAddr 0 dest = .ok d ∧ s.inq = [] ∧ t = s) := by
  cases h with
  | faulted r fault => exact .inr (.inl ⟨r, cause_of_execFault fault, rfl⟩)
  | waited dest d hi _ hd hq => exact .inr (.inr ⟨dest, d, hi, hd, hq, rfl⟩)
  | stored f a b dest va vb d rrw ha hb hd =>
    rw [commitPc_memWrite]
    exact .inl (retires_of_isRRW rrw ha hb hd)
  | took dest d x rest hi _ hd hq =>
    subst hi
    exact .inl ⟨d, x, rest, hd, hq, commitPc_memWrite _ d x _⟩
  | output a v hi hv =>
    subst hi
    exact .inl ⟨v, hv, commitPc_eq_moved _ _⟩
  | jumped p a b va vb jump ha hb =>
    rw [commitPc_eq_moved]
    exact .inl (retires_of_isJump jump ha hb)
  | adjusted a v hi hv =>
    subst hi
    exact .inl ⟨v, hv, commitPc_eq_moved _ _⟩
  | stopped hi =>
    subst hi
    exact .inl (commitPc_eq_moved s (-1))

/-- Settles O12: a Running core's word does not decode, or the outcome is that of the decoded instruction. -/
theorem oneEffectOrFaultOrWait : Obligations.OneEffectOrFaultOrWait := by
  rintro s t ⟨f, r⟩ h
  cases step_outcome h with
  | terminal stops => exact absurd stops (not_or.mpr ⟨not_not_intro f, State.pc_ne_halt r⟩)
  | lineThree _ outside => exact absurd r outside
  | decodeFault e => exact .inr (.inl ⟨raiseOfDecode e, raiseOfDecode_cause e, rfl⟩)
  | executed i _ _ _ hi _ outcome =>
    obtain retired | fault | ⟨dest, d, rfl, hd, hq, same⟩ := execOutcome_retires outcome
    · exact .inl ⟨i, hi, retired⟩
    · exact .inr (.inl fault)
    · exact .inr (.inr ⟨dest, d, hi, hd, hq, same⟩)

end Sys2Proof.Proofs.StepChanges
end

section
/-! The core after `RESET` (rules R231, R234, R236): where its `pc` stands and which run state that is. -/

namespace Sys2Proof.Proofs.ResetState

open Sys2Proof.Machine Sys2Proof.Proofs.Reset

/-- After `RESET` the core has no fault, and its `pc` is −1 or the first cell of the image (rules R231, R234). -/
theorem load_pc_legal (s : State) (image : List Word) :
    (s.load image).pc = Config.haltPc ∨ (s.load image).pcInRange := by
  cases image with
  | nil => exact .inl rfl
  | cons w ws =>
    have hpc : (s.load (w :: ws)).pc.toInt = 0 := by simp
    right
    rw [State.pcInRange, hpc, State.load_mlen]
    simp

theorem load_pc_toInt (s : State) (image : List Word) : (s.load image).pc.toInt = if image = [] then -1 else 0 := by
  cases image <;> simp

theorem load_runState (s : State) (image : List Word) :
    (s.load image).runState = if image = [] then .halted else .running := by
  by_cases empty : image = []
  · rw [if_pos empty]
    exact State.runState_halted rfl fun r => State.pc_ne_halt r (by simp [empty])
  · rw [if_neg empty]
    have notHalted : (s.load image).pc ≠ Config.haltPc := by
      simp only [State.load_pc, List.length_eq_zero_iff, if_neg empty]
      decide
    exact State.runState_running rfl ((load_pc_legal s image).resolve_left notHalted)

/-- Settles O49: what `RESET` of an image that fits loads, and the refusal of one that does not. -/
theorem resetStartsTheCore : Obligations.ResetStartsTheCore := fun s image =>
  ⟨fun fits => ⟨s.load image, hostAct_reset_of_fits fits, load_pc_toInt s image, rfl, rfl, rfl, rfl,
    load_runState s image⟩, fun tooLong => if_neg (not_le.mpr tooLong)⟩

/-- Settles O50: every register and the memory take their reset values, the queue and `ADDR_MAX` have them already. -/
theorem resetStateIsEmptyImage : Obligations.ResetStateIsEmptyImage := by
  refine ⟨fun s hq hmax => ?_, by decide, by decide⟩
  rw [State.load, hq, hmax]
  rfl

end Sys2Proof.Proofs.ResetState
end

section
/-! The invariant (rules R22, R27, R28, R34, R35): `RESET` with every image establishes it, and every step and every
host transaction keeps it. The cells beyond `MLEN` are treated apart first, in states of no invariant. -/

namespace Sys2Proof.Proofs.Invariant

open Sys2Proof.Machine Sys2Proof.Rules
open Sys2Proof.Proofs.StepChanges Sys2Proof.Proofs.StepReport Sys2Proof.Proofs.HostTransactions
open Sys2Proof.Proofs.DecodeFaults Sys2Proof.Proofs.FaultTable
open Sys2Proof.Proofs.Reset Sys2Proof.Proofs.ResetState
open Sys2Proof.Proofs.Pseudocode (memWrite_extentBound pc_legal_of_execOutcome)

variable {s t : State} {i : Instr} {r : Raise} {w : Word} {image : List Word}

/-- Whatever `RESET` establishes and the other transactions keep, every transaction keeps; an image that does not fit is
refused (assumption 16). -/
theorem hostAct_keeps_of_load {P : State → Prop}
    (load : ∀ (s : State) (image : List Word), image.length ≤ (s.addrMax : Nat) + 1 → P (s.load image))
    (feed : ∀ s ws, P s → P (s.feed ws)) (step : ∀ s, P s → P s.stepped)
    (write : ∀ s (a : Int) v, s.validAddr a → P s → P (s.memWrite a.toNat v)) (c : HostCmd) (s : State) (h : P s) :
    P (hostAct c s).1 := by
  by_cases notReset : ∀ image, c ≠ .reset image
  · exact hostAct_keeps feed step write c notReset s h
  · simp only [ne_eq, not_forall, not_not] at notReset
    obtain ⟨image, rfl⟩ := notReset
    rw [hostAct]
    split
    case isTrue fits => exact load s image fits
    case isFalse => exact h

/-! ### The cells beyond `MLEN` (rule R35) -/

/-- Every cell at or beyond `MLEN` holds 0. -/
def ZeroBeyond (s : State) : Prop := ∀ a, s.mlen ≤ a → s.mem.read a = 0

theorem load_zeroBeyond (s : State) (image : List Word) : ZeroBeyond (s.load image) := fun a beyond => by
  rw [load_read]
  exact List.getD_eq_default _ _ beyond

/-- A store extends `MLEN` over its cell, so it writes no cell beyond. -/
theorem ZeroBeyond.memWrite (h : ZeroBeyond s) (d : Nat) (v : Word) : ZeroBeyond (s.memWrite d v) := fun a beyond => by
  rw [memWrite_mlen_eq_max] at beyond
  rw [State.memWrite_mem, Memory.read_write_other _ _ (by omega)]
  exact h a (by omega)

theorem ZeroBeyond.of_atMostOneStore (h : ZeroBeyond s) (change : AtMostOneStore s t) : ZeroBeyond t := by
  obtain ⟨hmem, hmlen⟩ | ⟨d, v, -, hmem, hmlen⟩ := change
  · rwa [ZeroBeyond, hmem, hmlen]
  · rw [ZeroBeyond, hmem, hmlen]
    exact h.memWrite d v

theorem ZeroBeyond.step (h : ZeroBeyond s) (hs : step s = .next t) : ZeroBeyond t :=
  h.of_atMostOneStore (stepOutcome_atMostOneStore (step_outcome hs))

/-- Settles O25: a step makes at most one store, and so does a transaction between steps. -/
theorem cellsBeyondExtentAreZero : Obligations.CellsBeyondExtentAreZero :=
  ⟨load_zeroBeyond, fun _ _ => ZeroBeyond.step, fun s c =>
    hostAct_keeps_of_load (P := ZeroBeyond) (fun s image _ => load_zeroBeyond s image) (fun _ _ h => h)
      (fun s h => h.step (step_eq_stepped s)) (fun _ _ v _ h => h.memWrite _ v) c s⟩

/-! ### RESET -/

theorem nil_wf : Memory.wf [] := ⟨.nil, nofun⟩

theorem machineInv_load (fits : image.length ≤ (s.addrMax : Nat) + 1) : MachineInv (s.load image) where
  memCanonical := Memory.writeAll_wf image 0 nil_wf
  beyondExtentZero c hc := by
    obtain hc | hc := Memory.mem_writeAll image hc
    · cases hc
    · rwa [Nat.zero_add] at hc
  extentBound := fits
  pcLegal := load_pc_legal s image
  faultValue := rfl
  faultPointer := rfl
  faultedPc faulted := absurd rfl faulted

/-- Settles O14: the image is written into the empty memory. -/
theorem invariantAfterLoad : Obligations.InvariantAfterLoad := fun _ _ => machineInv_load

/-- Settles O13: `State.reset` is RESET of the empty image. -/
theorem invariantAtReset : Obligations.InvariantAtReset := by
  obtain ⟨reset_eq_load, -⟩ := resetStateIsEmptyImage
  rw [Obligations.InvariantAtReset, ← reset_eq_load State.reset rfl rfl]
  exact machineInv_load (Nat.zero_le _)

/-! ### The fault record (rules R27, R28) -/

/-- The value an unknown operation records has no instruction: it is not positive, or an undefined opcode. -/
theorem faultValueFits_of_isUnknown {v : Word} (h : IsUnknown w)
    (value : v.toInt = if w.toInt < 0 then trem w.toInt 100 else op w) : faultValueFits .unknownOperation v := by
  by_cases neg : w.toInt < 0
  · rw [if_pos neg] at value
    obtain ⟨lo, hi⟩ := trem_range_of_neg neg
    have notPos : v.toInt.toNat = 0 := by omega
    exact ⟨by omega, by omega, by rw [notPos]; rfl⟩
  · rw [if_neg neg] at value
    have undefined := h.resolve_left neg
    have lo : 0 ≤ op w := Int.emod_nonneg _ (by decide)
    have hi : op w < 100 := Int.emod_lt_of_pos _ (by decide)
    have not99 : op w ≠ 99 := fun e => undefined (e ▸ by decide)
    have opcode : v.toInt.toNat = w.toNat % 100 := by rw [value, op_eq_toNat_mod (not_lt.mp neg), Int.toNat_natCast]
    refine ⟨by omega, by omega, ?_⟩
    rw [opcode]
    exact (formatOf_eq_none_iff (not_lt.mp neg)).mpr undefined

/-- A decode fault carries a value that fits its cause (rules R94 to R98). -/
theorem faultValueFits_of_decode_error {e : DecodeError} (h : decode w = .error e) :
    faultValueFits (raiseOfDecode e).cause (raiseOfDecode e).info := by
  by_cases hu : IsUnknown w
  · obtain ⟨v, hv, value⟩ := decode_of_isUnknown hu
    cases h.symm.trans hv
    exact faultValueFits_of_isUnknown hu value
  by_cases hr : IsReserved w
  · have hd := decode_of_isReserved hr
    cases h.symm.trans hd
    exact hd
  by_cases hw : IsUnsettable w
  · have hd := decode_of_isUnsettable hw
    cases h.symm.trans hd
    exact hd
  · obtain ⟨i, hi⟩ := exists_decode_of_legal hu hr hw
    cases h.symm.trans hi

theorem faultValueFits_invalidAt (k : Fin 3) : faultValueFits .invalidAddress (invalidAt k).info :=
  match k with
  | 0 => .inl rfl
  | 1 => .inr (.inl rfl)
  | 2 => .inr (.inr rfl)

/-- Every fault of a step has a value that fits its cause: a decoded destination is settable. -/
theorem faultValueFits_of_stepFault (h : StepFault s r) : faultValueFits r.cause r.info := by
  obtain ⟨e, he, rfl⟩ | ⟨i, hi, fault⟩ := h
  · exact faultValueFits_of_decode_error he
  · cases fault with
    | address k => exact faultValueFits_invalidAt k
    | destination illFormed => exact absurd (decode_wellFormed hi) illFormed

/-! ### Every step and every transaction -/

/-- The part of the invariant that speaks of memory. -/
structure MemoryInv (s : State) : Prop where
  memCanonical : s.mem.wf
  beyondExtentZero : ∀ c ∈ s.mem, c.1 < s.mlen
  extentBound : s.mlen ≤ (s.addrMax : Nat) + 1

/-- The part of the invariant that speaks of the fault record. -/
structure RecordInv (s : State) : Prop where
  faultValue : faultValueFits s.fcause s.fval
  faultPointer : s.fpc = if s.fcause = .none then 0 else s.pc
  faultedPc : s.isFaulted → s.pcInRange

theorem machineInv_iff : MachineInv s ↔ MemoryInv s ∧ (s.pc = Config.haltPc ∨ s.pcInRange) ∧ RecordInv s :=
  ⟨fun ⟨wf, beyond, bound, legal, value, pointer, faulted⟩ => ⟨⟨wf, beyond, bound⟩, legal, ⟨value, pointer, faulted⟩⟩,
    fun ⟨⟨wf, beyond, bound⟩, legal, ⟨value, pointer, faulted⟩⟩ => ⟨wf, beyond, bound, legal, value, pointer, faulted⟩⟩

theorem MemoryInv.memWrite (h : MemoryInv s) {d : Nat} (hd : d ≤ (s.addrMax : Nat)) (v : Word) :
    MemoryInv (s.memWrite d v) where
  memCanonical := Memory.write_wf d v h.memCanonical
  beyondExtentZero c hc := by
    rw [memWrite_mlen_eq_max]
    obtain hc | ⟨rfl, -⟩ := Memory.mem_write hc
    · exact lt_max_of_lt_left (h.beyondExtentZero c hc)
    · exact lt_max_of_lt_right (Nat.lt_succ_self d)
  extentBound := memWrite_extentBound h.extentBound hd v

theorem MemoryInv.congr (h : MemoryInv s) (hmem : t.mem = s.mem) (hmlen : t.mlen = s.mlen)
    (hmax : t.addrMax = s.addrMax) : MemoryInv t := by
  obtain ⟨wf, beyond, bound⟩ := h
  refine ⟨?_, ?_, ?_⟩
  · rwa [hmem]
  · rwa [hmem, hmlen]
  · rwa [hmlen, hmax]

theorem MemoryInv.of_atMostOneStore (h : MemoryInv s) (change : AtMostOneStore s t) (hmax : t.addrMax = s.addrMax) :
    MemoryInv t := by
  obtain ⟨hmem, hmlen⟩ | ⟨d, v, hd, hmem, hmlen⟩ := change
  · exact h.congr hmem hmlen hmax
  · exact (h.memWrite hd v).congr hmem hmlen hmax

/-- A step leaves `pc` −1 or in range (rule R22). -/
theorem pc_legal_of_stepOutcome (h : MachineInv s) (outcome : StepOutcome s t) :
    t.pc = Config.haltPc ∨ t.pcInRange := by
  cases outcome with
  | terminal | decodeFault => exact h.pcLegal
  | lineThree => exact .inl rfl
  | executed _ _ _ r _ _ outcome => exact pc_legal_of_execOutcome h.extentBound r outcome

/-- A step of a core without a fault records one at its `pc`, or leaves the record clear. -/
theorem recordInv_of_stepOutcome (h : RecordInv s) (clear : s.fcause = .none) (outcome : StepOutcome s t) :
    RecordInv t := by
  obtain ⟨⟨-, r⟩, e, fault, rfl⟩ | ⟨hc, hv, hp⟩ := stepOutcome_record outcome
  · exact ⟨faultValueFits_of_stepFault fault, (if_neg (cause_of_stepFault fault)).symm, fun _ => r⟩
  · have zero : s.fpc = 0 := h.faultPointer.trans (if_pos clear)
    refine ⟨?_, ?_, fun c => absurd (hc.trans clear) c⟩
    · rw [hc, hv]
      exact h.faultValue
    · rw [if_pos (hc.trans clear), hp, zero]

/-- A step keeps each part of the invariant; a Faulted core takes none. -/
theorem machineInv_step (h : MachineInv s) (hs : step s = .next t) : MachineInv t := by
  by_cases clear : s.fcause = .none
  · obtain ⟨memory, -, record⟩ := machineInv_iff.mp h
    have outcome := step_outcome hs
    have stores := stepOutcome_atMostOneStore outcome
    exact machineInv_iff.mpr ⟨memory.of_atMostOneStore stores (stepOutcome_addrMax outcome),
      pc_legal_of_stepOutcome h outcome, recordInv_of_stepOutcome record clear outcome⟩
  · cases (step_terminal (.inl clear)).symm.trans hs
    exact h

/-- Settles O15: memory changes by at most one store, `pc` is committed, and the record is kept or written by a
fault. -/
theorem invariantKeptByStep : Obligations.InvariantKeptByStep := fun _ _ => machineInv_step

theorem machineInv_memWrite (h : MachineInv s) {d : Nat} (hd : d ≤ (s.addrMax : Nat)) (v : Word) :
    MachineInv (s.memWrite d v) := by
  obtain ⟨memory, legal, ⟨value, pointer, faulted⟩⟩ := machineInv_iff.mp h
  have inRange (r : s.pcInRange) : (s.memWrite d v).pcInRange := by
    rw [State.pcInRange, memWrite_mlen_eq_max, State.memWrite_pc]
    omega
  exact machineInv_iff.mpr ⟨memory.memWrite hd v, legal.imp_right inRange,
    ⟨value, pointer, fun c => inRange (faulted c)⟩⟩

/-- The invariant does not speak of the queue. -/
theorem machineInv_feed (h : MachineInv s) (ws : List Word) : MachineInv (s.feed ws) :=
  ⟨h.memCanonical, h.beyondExtentZero, h.extentBound, h.pcLegal, h.faultValue, h.faultPointer, h.faultedPc⟩

/-- Settles O16: `RESET` establishes the invariant, and steps, appends and stores keep it. -/
theorem invariantKeptByHost : Obligations.InvariantKeptByHost :=
  hostAct_keeps_of_load (fun _ _ => machineInv_load) (fun _ ws h => machineInv_feed h ws)
    (fun s h => machineInv_step h (step_eq_stepped s))
    fun s a v valid h => machineInv_memWrite h (by obtain ⟨lo, hi⟩ := valid; omega) v

end Sys2Proof.Proofs.Invariant
end

section
/-! The memory array as a function: what a store leaves in every cell (rules R58, R59), and that canonical memories with
equal contents are equal data. -/

namespace Sys2Proof.Proofs.MemoryArray

open Sys2Proof.Machine Sys2Proof.Rules Sys2Proof.Proofs.HostTransactions

/-- Settles O23: the laws of `Memory.write`, and a store that writes no other field but `MLEN`. -/
theorem writeStoresAndExtends : Obligations.WriteStoresAndExtends := fun s a v wf =>
  ⟨fun b => Memory.read_write a b v wf, memWrite_mlen_eq_max s a v, Memory.write_wf a v wf, rfl, ⟨rfl, rfl, rfl, rfl⟩,
    ⟨rfl, rfl, rfl⟩⟩

/-- Below its entries a memory reads as 0. -/
theorem read_eq_zero_of_le {m : Memory} {a b : Nat} (above : ∀ c ∈ m, b < c.1) (h : a ≤ b) : m.read a = 0#64 :=
  Memory.read_eq_zero fun c hc e => by
    have := above c hc
    omega

/-- The first entry of a canonical memory is the lowest cell that is not 0, so canonical memories with equal contents do
not begin with different addresses. -/
theorem head_le_of_read_eq {c d : Cell} {m n : Memory} (hm : Memory.wf (c :: m)) (hn : Memory.wf (d :: n))
    (same : ∀ a, Memory.read (c :: m) a = Memory.read (d :: n) a) : d.1 ≤ c.1 := by
  obtain ⟨-, nonzero, -⟩ := Memory.wf_cons.mp hm
  obtain ⟨above, -, -⟩ := Memory.wf_cons.mp hn
  by_contra lower
  have hc := same c.1
  rw [Memory.read_cons, if_pos rfl, Memory.read_cons, if_neg (by omega), read_eq_zero_of_le above (by omega)] at hc
  exact nonzero hc

/-- Under an equal first entry the rests have equal contents. -/
theorem read_tail_eq {c : Cell} {m n : Memory} (hm : Memory.wf (c :: m)) (hn : Memory.wf (c :: n))
    (same : ∀ a, Memory.read (c :: m) a = Memory.read (c :: n) a) (a : Nat) : m.read a = n.read a := by
  obtain ⟨aboveM, -, -⟩ := Memory.wf_cons.mp hm
  obtain ⟨aboveN, -, -⟩ := Memory.wf_cons.mp hn
  by_cases e : a = c.1
  · rw [read_eq_zero_of_le aboveM e.le, read_eq_zero_of_le aboveN e.le]
  · have h := same a
    rwa [Memory.read_cons, if_neg e, Memory.read_cons, if_neg e] at h

/-- A canonical memory that reads as 0 everywhere has no entry. -/
theorem eq_nil_of_read_eq_zero {m : Memory} (hm : m.wf) (zero : ∀ a, m.read a = 0#64) : m = [] := by
  cases m with
  | nil => rfl
  | cons c m =>
    obtain ⟨-, nonzero, -⟩ := Memory.wf_cons.mp hm
    have hc := zero c.1
    rw [Memory.read_cons, if_pos rfl] at hc
    exact absurd hc nonzero

/-- Settles O24, by induction on the first memory: the first entries agree in address and word, and so do the rests. -/
theorem canonicalMemoryIsUnique : Obligations.CanonicalMemoryIsUnique := by
  intro m
  induction m with
  | nil => exact fun n _ hn same => (eq_nil_of_read_eq_zero hn fun a => (same a).symm).symm
  | cons c m ih =>
    intro n hm hn same
    cases n with
    | nil => exact eq_nil_of_read_eq_zero hm same
    | cons d n =>
      have address : c.1 = d.1 :=
        le_antisymm (head_le_of_read_eq hn hm fun a => (same a).symm) (head_le_of_read_eq hm hn same)
      have value : c.2 = d.2 := by
        have h := same c.1
        rwa [Memory.read_cons, if_pos rfl, Memory.read_cons, if_pos address] at h
      obtain rfl : c = d := Prod.ext address value
      obtain ⟨-, -, wfM⟩ := Memory.wf_cons.mp hm
      obtain ⟨-, -, wfN⟩ := Memory.wf_cons.mp hn
      rw [ih n wfM wfN (read_tail_eq hm hn same)]

end Sys2Proof.Proofs.MemoryArray
end

section
/-! The frames of the ten instructions: what an execution leaves unchanged where its operands resolve, and where one of
them does not. -/

namespace Sys2Proof.Proofs.Frames

open Sys2Proof.Machine Sys2Proof.Rules
open Sys2Proof.Proofs.Arithmetic Sys2Proof.Proofs.ControlFlow Sys2Proof.Proofs.OneSlot Sys2Proof.Proofs.InputOutput

variable {s t : State}

/-- A resolution that answered `t` gave a value and went on with it, or raised and took the fault. -/
theorem resolved_eq_next {α : Type} {x : Except Raise α} {K : α → Result} (h : resolved s x K = .next t) :
    (∃ v, x = .ok v ∧ K v = .next t) ∨ ∃ r, x = .error r ∧ t = faultedWith s r := by
  cases x with
  | ok v => exact .inl ⟨v, rfl, h⟩
  | error r =>
    cases h
    exact .inr ⟨r, rfl, rfl⟩

/-! ### The updates of the state -/

theorem sameMemory_faultedWith (s : State) (r : Raise) : sameMemory s (faultedWith s r) := ⟨fun _ => rfl, rfl⟩

theorem sameElsewhere_faultedWith (s : State) (r : Raise) : sameElsewhere s (faultedWith s r) := ⟨rfl, rfl, rfl, rfl⟩

theorem sameMemory_moved (s : State) (npc : Int) : sameMemory s (moved s npc) := ⟨fun _ => rfl, rfl⟩

theorem sameElsewhere_moved (s : State) (npc : Int) : sameElsewhere s (moved s npc) := ⟨rfl, rfl, rfl, rfl⟩

theorem sameRecord_moved (s : State) (npc : Int) : sameRecord s (moved s npc) := ⟨rfl, rfl, rfl⟩

theorem sameElsewhere_stored (s : State) (d : Nat) (v : Word) (npc : Int) : sameElsewhere s (stored s d v npc) :=
  ⟨rfl, rfl, rfl, rfl⟩

theorem sameRecord_stored (s : State) (d : Nat) (v : Word) (npc : Int) : sameRecord s (stored s d v npc) :=
  ⟨rfl, rfl, rfl⟩

/-- A store leaves every other cell. -/
theorem stored_read_other (s : State) {d x : Nat} (v : Word) (npc : Int) (h : x ≠ d) :
    (stored s d v npc).mem.read x = s.mem.read x := Memory.read_write_other _ _ h

/-! ### ADD, MUL, LT and EQ -/

section Storing

variable {mk : Mode → Mode → Mode → Instr} {o : Int} {f : Word → Word → Word} (row : RRWRow mk o f)
include row

/-- All three operands resolve and the result is stored, or one does not and a fault is taken. -/
theorem exec_of_row_cases {a b dest : Mode} (hs : dest ≠ .immediate) (h : exec (mk a b dest) s = .next t) :
    (∃ va vb d, s.readOperand 0 a = .ok va ∧ s.readOperand 1 b = .ok vb ∧ s.writeAddr 2 dest = .ok d ∧
      t = stored s d (f va vb) (s.pc.toInt + 4)) ∨
    ((∃ r, s.readOperand 0 a = .error r ∨ s.readOperand 1 b = .error r ∨ s.writeAddr 2 dest = .error r) ∧
      ∃ r, t = faultedWith s r) := by
  rw [exec_of_row_settable row hs] at h
  obtain ⟨va, ha, h⟩ | ⟨r, hr, ht⟩ := resolved_eq_next h
  · obtain ⟨vb, hb, h⟩ | ⟨r, hr, ht⟩ := resolved_eq_next h
    · obtain ⟨d, hd, h⟩ | ⟨r, hr, ht⟩ := resolved_eq_next h
      · cases h
        exact .inl ⟨va, vb, d, ha, hb, hd, rfl⟩
      · exact .inr ⟨⟨r, .inr (.inr hr)⟩, r, ht⟩
    · exact .inr ⟨⟨r, .inr (.inl hr)⟩, r, ht⟩
  · exact .inr ⟨⟨r, .inl hr⟩, r, ht⟩

/-- The cell of the destination is the only one a store writes, and a fault writes none. -/
theorem storeFrame_of_row : storeFrame mk := by
  intro a b dest s t hs h
  obtain ⟨va, vb, d, ha, hb, hd, rfl⟩ | ⟨⟨r, unresolved⟩, _, rfl⟩ := exec_of_row_cases row hs h
  · refine ⟨sameElsewhere_stored s _ _ _, fun d' hd' x hx => ?_, fun r hr => ?_, fun _ _ _ _ _ _ =>
      sameRecord_stored s _ _ _⟩
    · cases hd.symm.trans hd'
      exact stored_read_other s _ _ hx
    · simp [ha, hb, hd] at hr
  · refine ⟨sameElsewhere_faultedWith s _, fun _ _ _ _ => rfl, fun _ _ => ⟨sameMemory_faultedWith s _, rfl⟩,
      fun va vb d ha hb hd => ?_⟩
    simp [ha, hb, hd] at unresolved

end Storing

/-- Settles O36, row by row. -/
theorem storingInstructionsFrame : Obligations.StoringInstructionsFrame :=
  ⟨storeFrame_of_row .add, storeFrame_of_row .mul, storeFrame_of_row .lt, storeFrame_of_row .eq⟩

/-! ### IN and OUT -/

/-- Settles O37: the destination faults, or the queue is empty, or its head is stored. -/
theorem inFrame : Obligations.InFrame := by
  intro dest s t hd h
  cases hw : s.writeAddr 0 dest with
  | error r =>
    cases (exec_inp_of_fault hd hw).symm.trans h
    have memory := sameMemory_faultedWith s r
    exact ⟨rfl, rfl, rfl, nofun, fun _ _ => ⟨memory, rfl, rfl⟩, fun _ => ⟨memory, rfl⟩⟩
  | ok d =>
    cases hq : s.inq with
    | nil =>
      cases (exec_inp_of_empty hd hw hq).symm.trans h
      exact ⟨rfl, rfl, rfl, fun _ _ => ⟨⟨rfl, rfl, rfl⟩, hq, fun _ _ => rfl⟩, nofun,
        fun _ => ⟨⟨fun _ => rfl, rfl⟩, rfl⟩⟩
    | cons x rest =>
      cases (exec_inp_of_word hd hw hq).symm.trans h
      refine ⟨rfl, rfl, rfl, fun d' hd' => ⟨⟨rfl, rfl, rfl⟩, rfl, fun y hy => ?_⟩, nofun, nofun⟩
      cases hd'
      exact stored_read_other _ _ _ hy

/-- Settles O38: the row of OUT. -/
theorem outFrame : Obligations.OutFrame := by
  intro a s t h
  rw [exec_of_readRow .out] at h
  obtain ⟨v, hv, h⟩ | ⟨r, hr, rfl⟩ := resolved_eq_next h
  · cases h
    exact ⟨⟨fun _ => rfl, rfl⟩, rfl, rfl, rfl, fun _ _ => ⟨rfl, rfl, rfl⟩, by simp [hv]⟩
  · exact ⟨sameMemory_faultedWith s r, rfl, rfl, rfl, by simp [hr], fun _ _ => ⟨rfl, rfl⟩⟩

/-! ### ARB -/

/-- Settles O40: the row of ARB. -/
theorem arbFrame : Obligations.ArbFrame := by
  intro a s t h
  rw [exec_of_readRow .arb] at h
  obtain ⟨v, hv, h⟩ | ⟨r, hr, rfl⟩ := resolved_eq_next h
  · cases h
    exact ⟨⟨fun _ => rfl, rfl⟩, rfl, rfl, rfl, fun _ _ => ⟨rfl, rfl, rfl⟩, by simp [hv]⟩
  · exact ⟨sameMemory_faultedWith s r, rfl, rfl, rfl, by simp [hr], fun _ _ => ⟨rfl, rfl⟩⟩

/-! ### JNZ, JZ and HLT -/

theorem frame_of_isJump {i : Instr} {p : Word → Bool} {a b : Mode} (jump : IsJump i p a b) (h : exec i s = .next t) :
    sameMemory s t ∧ sameElsewhere s t ∧
    (∀ va vb, s.readOperand 0 a = .ok va → s.readOperand 1 b = .ok vb → sameRecord s t) ∧
    (∀ r, s.readOperand 0 a = .error r ∨ s.readOperand 1 b = .error r → t.pc = s.pc) := by
  rw [exec_of_isJump jump] at h
  obtain ⟨va, ha, h⟩ | ⟨r, hr, rfl⟩ := resolved_eq_next h
  · obtain ⟨vb, hb, h⟩ | ⟨r, hr, rfl⟩ := resolved_eq_next h
    · cases h
      exact ⟨sameMemory_moved s _, sameElsewhere_moved s _, fun _ _ _ _ => sameRecord_moved s _, by simp [ha, hb]⟩
    · exact ⟨sameMemory_faultedWith s r, sameElsewhere_faultedWith s r, by simp [hr], fun _ _ => rfl⟩
  · exact ⟨sameMemory_faultedWith s r, sameElsewhere_faultedWith s r, by simp [hr], fun _ _ => rfl⟩

/-- Settles O39: both jumps by one lemma, and HLT writes `pc` alone. -/
theorem controlFlowFrame : Obligations.ControlFlowFrame := by
  refine ⟨?_, fun s t h => ?_⟩
  · rintro i a b s t (rfl | rfl) h
    · exact frame_of_isJump (.jnz a b) h
    · exact frame_of_isJump (.jz a b) h
  · cases (exec_hlt s).symm.trans h
    exact ⟨sameMemory_moved s (-1), sameElsewhere_moved s (-1), sameRecord_moved s (-1)⟩

end Sys2Proof.Proofs.Frames
end

section
/-! What the channels hold has no part in a step but for the head of `INQ` (rules R160, R161, R213): a starved IN and
the words that feed it; and a step from a state with other channel contents, which is the step with those contents
carried along. -/

namespace Sys2Proof.Proofs.Channels

open Sys2Proof.Machine Sys2Proof.Rules
open Sys2Proof.Proofs.RunState Sys2Proof.Proofs.StepReport Sys2Proof.Proofs.OperandModes
open Sys2Proof.Proofs.InputOutput Sys2Proof.Proofs.StepChanges

variable {s t : State} {i : Instr}

/-! ### A starved IN -/

theorem dest_ne_immediate_of_decode {w : Word} {dest : Mode} (h : decode w = .ok (.inp dest)) : dest ≠ .immediate :=
  settable_iff.mp (decode_wellFormed h)

/-- What `wait_in` says (rule R43): the core is Running, its instruction is an IN with a valid destination, and `INQ` is
empty. -/
theorem waitsForInput_iff : s.waitsForInput = true ↔
    Running s ∧ s.inq = [] ∧ ∃ dest d, decode s.instrWord = .ok (.inp dest) ∧ s.writeAddr 0 dest = .ok d := by
  have starved : (!s.inAvail) = true ↔ s.inq = [] := by simp [State.inAvail]
  rw [State.waitsForInput, Bool.and_eq_true, Bool.and_eq_true, decide_eq_true_iff, runState_eq_running_iff, starved,
    and_assoc]
  refine and_congr_right fun _ => and_congr_right fun _ => ⟨fun h => ?_, fun ⟨dest, d, hi, hd⟩ => by simp [hi, hd]⟩
  split at h
  case h_1 dest hi =>
    split at h
    case h_1 d hd => exact ⟨dest, d, hi, hd⟩
    case h_2 => cases h
  case h_2 => cases h

/-- A starved core's step is no change (rule R164). -/
theorem step_of_waitsForInput (h : s.waitsForInput = true) : step s = .next s := by
  obtain ⟨run, hq, dest, d, hi, hd⟩ := waitsForInput_iff.mp h
  rw [stepRunsDecodedInstruction s _ run hi, exec_inp_of_empty (dest_ne_immediate_of_decode hi) hd hq]

theorem report_of_waitsForInput (h : s.waitsForInput = true) : s.report = .waitingInput := by
  obtain ⟨⟨f, r⟩, -⟩ := waitsForInput_iff.mp h
  rw [report_of_running (step_of_waitsForInput h) f r, if_pos h]

/-- Settles O43: the starved core waits; fed, it takes the head of its queue. -/
theorem starvedInWaitsUntilFed : Obligations.StarvedInWaitsUntilFed := by
  intro s dest d run hi hd hq
  have waits : s.waitsForInput = true := waitsForInput_iff.mpr ⟨run, hq, dest, d, hi, hd⟩
  refine ⟨step_of_waitsForInput waits, report_of_waitsForInput waits, running_of_waitsForInput waits, fun x ws => ?_⟩
  have fed : (s.feed (x :: ws)).inq = x :: ws := by rw [State.feed_inq, hq, List.nil_append]
  change step (s.feed (x :: ws)) = _
  rw [stepRunsDecodedInstruction (s.feed (x :: ws)) _ run hi]
  exact exec_inp_of_word (dest_ne_immediate_of_decode hi) hd fed

/-! ### Other channel contents -/

/-- `s` with other contents in its channels. -/
def withChannels (g h : List Word → List Word) (s : State) : State := { s with inq := g s.inq, outq := h s.outq }

/-- `g` keeps the head of the queue `q`, and an empty queue empty. -/
def KeepsHead (g : List Word → List Word) (q : List Word) : Prop :=
  (q = [] → g q = []) ∧ ∀ x rest, q = x :: rest → g q = x :: g rest

/-- `h` keeps the words that a state with output `q` appends. -/
def KeepsAppend (h : List Word → List Word) (q : List Word) : Prop := ∀ v, h (q ++ [v]) = h q ++ [v]

/-- The result `y` is the result `x` with the state changed by `φ`. -/
def Simulates (φ : State → State) (x y : Result) : Prop := ∃ t, x = .next t ∧ y = .next (φ t)

section Simulation

variable {g h : List Word → List Word}

/-- The pointer update reads no channel. -/
theorem commitPc_withChannels (s : State) (npc : Int) :
    (withChannels g h s).commitPc npc = withChannels g h (s.commitPc npc) := by
  rw [State.commitPc, State.commitPc, apply_ite (withChannels g h)]
  rfl

theorem simulates_retire (s : State) (npc : Int) :
    Simulates (withChannels g h) (retire s npc) (retire (withChannels g h s) npc) :=
  ⟨_, rfl, congrArg Host.Outcome.next (commitPc_withChannels s npc)⟩

/-- A resolution that reads no channel, followed by what simulates. -/
theorem simulates_resolved {α : Type} {x : Except Raise α} {K K' : α → Result}
    (next : ∀ v, x = .ok v → Simulates (withChannels g h) (K v) (K' v)) :
    Simulates (withChannels g h) (resolved s x K) (resolved (withChannels g h s) x K') := by
  cases x with
  | ok v => exact next v rfl
  | error r => exact ⟨_, rfl, rfl⟩

theorem simulates_execRRW (f : Word → Word → Word) (a b dest : Mode) :
    Simulates (withChannels g h) (execRRW f a b dest s) (execRRW f a b dest (withChannels g h s)) :=
  simulates_resolved fun _ _ => simulates_resolved fun va _ => simulates_resolved fun vb _ =>
    simulates_resolved fun d _ => simulates_retire (s.memWrite d (f va vb)) _

theorem simulates_execJump (p : Word → Bool) (a b : Mode) :
    Simulates (withChannels g h) (execJump p a b s) (execJump p a b (withChannels g h s)) :=
  simulates_resolved fun _ _ => simulates_resolved fun _ _ => simulates_retire s _

theorem simulates_execArb (a : Mode) :
    Simulates (withChannels g h) (execArb a s) (execArb a (withChannels g h s)) :=
  simulates_resolved fun _ _ => simulates_retire (s.setRb _) _

theorem simulates_execOut (keeps : KeepsAppend h s.outq) (a : Mode) :
    Simulates (withChannels g h) (execOut a s) (execOut a (withChannels g h s)) := by
  refine simulates_resolved fun v _ => ?_
  have appended : (withChannels g h s).outPut v = withChannels g h (s.outPut v) := by
    simp only [withChannels, State.outPut, keeps v]
  rw [appended]
  exact simulates_retire _ _

theorem simulates_execIn {dest : Mode} (keeps : ∀ d, s.writeAddr 0 dest = .ok d → KeepsHead g s.inq) :
    Simulates (withChannels g h) (execIn dest s) (execIn dest (withChannels g h s)) := by
  refine simulates_resolved fun _ _ => simulates_resolved fun d hd => ?_
  obtain ⟨keepsEmpty, keepsWord⟩ := keeps d hd
  cases hq : s.inq with
  | nil =>
    have empty : (withChannels g h s).inq = [] := keepsEmpty hq
    rw [State.inTake_nil s hq, State.inTake_nil _ empty]
    exact ⟨s, rfl, rfl⟩
  | cons x rest =>
    have word : (withChannels g h s).inq = x :: g rest := keepsWord x rest hq
    rw [State.inTake_cons s hq, State.inTake_cons _ word]
    exact simulates_retire (State.memWrite { s with inq := rest } d x) _

/-- Only IN and OUT touch a channel. -/
theorem simulates_exec (keepsOut : KeepsAppend h s.outq)
    (keepsIn : ∀ dest d, i = .inp dest → s.writeAddr 0 dest = .ok d → KeepsHead g s.inq) :
    Simulates (withChannels g h) (exec i s) (exec i (withChannels g h s)) := by
  cases i with
  | add a b dest | mul a b dest | lt a b dest | eq a b dest => exact simulates_execRRW _ a b dest
  | inp dest => exact simulates_execIn fun d => keepsIn dest d rfl
  | out a => exact simulates_execOut keepsOut a
  | jnz a b | jz a b => exact simulates_execJump _ a b
  | arb a => exact simulates_execArb a
  | hlt => exact simulates_retire s (-1)

/-- Outside an execution a step touches no channel. -/
theorem stepped_withChannels (keepsOut : KeepsAppend h s.outq)
    (keepsIn : ∀ dest d, Running s → decode s.instrWord = .ok (.inp dest) → s.writeAddr 0 dest = .ok d →
      KeepsHead g s.inq) : (withChannels g h s).stepped = withChannels g h s.stepped := by
  obtain ⟨t, hs, outcome⟩ := step_cases s
  rw [stepped_eq_of_step hs]
  apply stepped_eq_of_step
  cases outcome with
  | terminal stops => exact step_terminal (s := withChannels g h s) stops
  | lineThree f outside notHalted => exact step_outOfRange (s := withChannels g h s) f outside notHalted
  | decodeFault e f r he => exact step_decodeFault (s := withChannels g h s) f r he
  | executed i _ f r hi he _ =>
    have run : Running s := ⟨not_not.mp f, r⟩
    obtain ⟨u, hu, simulated⟩ := simulates_exec (i := i) keepsOut fun dest d e =>
      keepsIn dest d run (hi.trans (congrArg Except.ok e))
    cases he.symm.trans hu
    exact (step_decoded (s := withChannels g h s) f r hi).trans simulated

end Simulation

/-! ### The report -/

/-- The report is a function of the run state after the step and of whether the core waits. -/
theorem report_congr {u : State} (run : u.stepped.runState = s.stepped.runState)
    (waits : u.waitsForInput = s.waitsForInput) : u.report = s.report := by
  unfold State.report
  rw [run, waits]

/-- Words behind the head do not make a core wait. -/
theorem waitsForInput_feed (h : s.waitsForInput = false) (ws : List Word) : (s.feed ws).waitsForInput = false := by
  rw [← Bool.not_eq_true, waitsForInput_iff] at h ⊢
  rintro ⟨run, hq, wants⟩
  exact h ⟨run, (List.append_eq_nil_iff.mp hq).1, wants⟩

/-- Only a starved core's step sees words appended behind the head (rule R213). -/
theorem stepped_feed (h : s.waitsForInput = false) (ws : List Word) : (s.feed ws).stepped = s.stepped.feed ws := by
  refine stepped_withChannels (g := (· ++ ws)) (h := id) (fun _ => rfl) fun dest d run hi hd => ?_
  have hasWord : s.inq ≠ [] := fun hq => by
    rw [waitsForInput_iff.mpr ⟨run, hq, dest, d, hi, hd⟩] at h
    cases h
  exact ⟨fun hq => absurd hq hasWord, fun x rest hq => by rw [hq]; rfl⟩

/-- Settles O44: appending keeps the head of a queue that has one, and no other part of a step reads the queue. -/
theorem appendedInputCommutesWithStep : Obligations.AppendedInputCommutesWithStep := fun s ws h =>
  ⟨stepped_feed h ws, report_congr (by rw [stepped_feed h ws]; rfl) ((waitsForInput_feed h ws).trans h.symm)⟩

/-- Settles O45: with `n` words output before the step, the step with history `q` is the step whose output has its
first `n` words replaced by `q`. -/
theorem outputHistoryIsNotRead : Obligations.OutputHistoryIsNotRead := by
  intro s q
  have history : withChannels id (q ++ ·.drop s.outq.length) s = { s with outq := q } := by
    simp [withChannels]
  have stepped := stepped_withChannels (s := s) (g := id) (h := (q ++ ·.drop s.outq.length))
    (fun v => by simp) fun _ _ _ _ _ => ⟨id, fun _ _ => id⟩
  rw [history] at stepped
  exact ⟨stepped, report_congr (by rw [stepped]; rfl) rfl⟩

end Sys2Proof.Proofs.Channels
end

section
/-! The ring (rules R62, R210, R211, R213): what one core's step leaves of every core, and that the steps of two cores
that are not starved commute. -/

namespace Sys2Proof.Proofs.FeedbackRing

open Sys2Proof.Machine Sys2Proof.Proofs.Channels

variable {cores : List State} {i j : Nat} {s t : State}

/-- The words `ws` for the core numbered `next`, none for any other core `k`. -/
def wordsFor (next k : Nat) (ws : List Word) : List Word := if k = next then ws else []

theorem wordsFor_self (k : Nat) (ws : List Word) : wordsFor k k ws = ws := if_pos rfl

theorem wordsFor_of_ne {next k : Nat} (h : k ≠ next) (ws : List Word) : wordsFor next k ws = [] := if_neg h

/-- Core `i` has stepped, and every core has got the words routed to it. -/
theorem getElem?_stepCore (hi : cores[i]? = some s) (k : Nat) :
    (stepCore cores i)[k]? = cores[k]?.map fun u =>
      (if k = i then s.stepped else u).feed (wordsFor ((i + 1) % cores.length) k s.outputOfStep) := by
  have stepped : (cores.set i s.stepped)[k]? = cores[k]?.map fun u => if k = i then s.stepped else u := by
    by_cases self : k = i
    · subst self
      rw [List.getElem?_set_self', hi]
      simp
    · rw [List.getElem?_set_ne (Ne.symm self)]
      simp [self]
  rw [stepCore, hi, List.getElem?_modify, stepped]
  by_cases next : k = (i + 1) % cores.length
  · subst next
    simp [wordsFor_self, Function.comp_def]
  · simp [wordsFor_of_ne next, Ne.symm next]

/-- Settles O56: the four clauses are the cases of the lemma on every core. -/
theorem ringRoutesOutput : Obligations.RingRoutesOutput := by
  intro cores i s hi
  have core := getElem?_stepCore hi
  refine ⟨fun j self next => ?_, fun next => ?_, fun t next ht => ?_, fun next => ?_⟩
  · rw [core, wordsFor_of_ne next]
    simp [self]
  · rw [core, hi, wordsFor_of_ne next.symm]
    simp
  · rw [core, ht, wordsFor_self]
    simp [next]
  · rw [core, hi, next, wordsFor_self]
    simp

/-! ### Two cores -/

theorem length_stepCore (cores : List State) (i : Nat) : (stepCore cores i).length = cores.length := by
  unfold stepCore
  split <;> simp

theorem feed_feed (s : State) (ws vs : List Word) : (s.feed ws).feed vs = s.feed (ws ++ vs) := by
  simp [State.feed, List.append_assoc]

/-- Words appended to a core that does not wait do not change what its step outputs. -/
theorem outputOfStep_feed (h : s.waitsForInput = false) (ws : List Word) :
    (s.feed ws).outputOfStep = s.outputOfStep := by
  rw [State.outputOfStep, stepped_feed h]
  rfl

/-- Different cores have different successors in the ring. -/
theorem successor_ne (hi : i < cores.length) (hj : j < cores.length) (h : i ≠ j) :
    (i + 1) % cores.length ≠ (j + 1) % cores.length := fun e => h <| by
  have := Nat.ModEq.add_right_cancel' 1 e
  rwa [Nat.ModEq, Nat.mod_eq_of_lt hi, Nat.mod_eq_of_lt hj] at this

/-- After the steps of `i` and of `j`, in this order: both have stepped, and every core has got the words of both. -/
theorem getElem?_stepCore_stepCore (hij : i ≠ j) (hi : cores[i]? = some s) (hj : cores[j]? = some t)
    (ht : t.waitsForInput = false) (k : Nat) :
    (stepCore (stepCore cores i) j)[k]? = cores[k]?.map fun u =>
      (if k = j then t.stepped else if k = i then s.stepped else u).feed
        (wordsFor ((i + 1) % cores.length) k s.outputOfStep ++ wordsFor ((j + 1) % cores.length) k t.outputOfStep) := by
  have hj' : (stepCore cores i)[j]? = some (t.feed (wordsFor ((i + 1) % cores.length) j s.outputOfStep)) := by
    rw [getElem?_stepCore hi, hj, Option.map_some, if_neg hij.symm]
  rw [getElem?_stepCore hj', getElem?_stepCore hi, length_stepCore, stepped_feed ht, outputOfStep_feed ht,
    Option.map_map]
  congr 1
  funext u
  by_cases self : k = j
  · subst self
    simp [feed_feed]
  · simp [self, feed_feed]

/-- At most one of the two successors is `k`, so the order of the words does not show. -/
theorem wordsFor_append_comm {a b : Nat} (h : a ≠ b) (k : Nat) (ws vs : List Word) :
    wordsFor a k ws ++ wordsFor b k vs = wordsFor b k vs ++ wordsFor a k ws := by
  by_cases ha : k = a
  · have hb : k ≠ b := fun hb => h (ha.symm.trans hb)
    rw [wordsFor_of_ne hb, List.append_nil, List.nil_append]
  · rw [wordsFor_of_ne ha, List.append_nil, List.nil_append]

/-- Settles O57: core by core, the two orders leave the same state. -/
theorem coreStepsCommute : Obligations.CoreStepsCommute := by
  intro cores i j s t hij hi hj hs ht
  obtain ⟨li, -⟩ := List.getElem?_eq_some_iff.mp hi
  obtain ⟨lj, -⟩ := List.getElem?_eq_some_iff.mp hj
  refine List.ext_getElem? fun k => ?_
  rw [getElem?_stepCore_stepCore hij hi hj ht, getElem?_stepCore_stepCore hij.symm hj hi hs,
    wordsFor_append_comm (successor_ne li lj hij)]
  congr 1
  funext u
  by_cases self : k = j
  · simp [self, hij.symm]
  · simp [self]

end Sys2Proof.Proofs.FeedbackRing
end

section
/-! `RUN` (rule R125): its loop is steps with host appends between, and a hold lasts exactly as long as the queue of a
starved core stays empty (rule R164). -/

namespace Sys2Proof.Proofs.RunLoop

open Sys2Proof.Machine Sys2Proof.Rules
open Sys2Proof.Proofs.StepReport Sys2Proof.Proofs.Channels

variable {s : State} {ws : List Word} {turns : List (List Word)} {holding : Bool} {result : State × RunEnd}

/-! ### The turns of the loop -/

theorem stepped_of_waitsForInput (h : s.waitsForInput = true) : s.stepped = s :=
  stepped_eq_of_step (step_of_waitsForInput h)

/-- What each report says of the state after the step (rule R126). -/
theorem report_cases (s : State) :
    (s.report = .halted ∧ s.stepped.runState = .halted) ∨ (s.report = .faulted ∧ s.stepped.runState = .faulted) ∨
    (s.report = .waitingInput ∧ s.waitsForInput = true) ∨ s.report = .continue := by
  unfold State.report
  split
  case h_1 faulted => exact .inr (.inl ⟨rfl, faulted⟩)
  case h_2 halted => exact .inl ⟨rfl, halted⟩
  case h_3 =>
    by_cases waits : s.waitsForInput = true
    · exact .inr (.inr (.inl ⟨if_pos waits, waits⟩))
    · exact .inr (.inr (.inr (if_neg waits)))

/-- How the loop goes on after a step that left `t` with the report given. -/
def afterReport (turns : List (List Word)) (t : State) : Report → State × RunEnd
  | .continue => State.runLoop false turns t
  | .waitingInput => State.runLoop true turns t
  | .halted => (t, .returned .halted)
  | .faulted => (t, .returned .faulted)

/-- A turn that is no turn of a hold is a step. -/
theorem runLoop_step (h : ¬ (holding = true ∧ (s.feed ws).inAvail = false)) (turns : List (List Word)) :
    State.runLoop holding (ws :: turns) s = afterReport turns (s.feed ws).stepped (s.feed ws).report := by
  rw [State.runLoop]
  simp only [if_neg h]
  cases (s.feed ws).report <;> rfl

/-! ### RUN passes through steps -/

/-- The state after the turns given, each an append and a step. -/
def afterTurns (turns : List (List Word)) (s : State) : State := turns.foldl (fun t ws => (t.feed ws).stepped) s

/-- `result` is reached from `s` by some of the turns, all of them where `RUN` has not returned, and its end fits the
state reached. -/
def ReachedBySteps (turns : List (List Word)) (s : State) (result : State × RunEnd) : Prop :=
  ∃ k, k ≤ turns.length ∧ result.1 = afterTurns (turns.take k) s ∧
    (∀ r, result.2 = .returned r → (r = .halted ∧ result.1.runState = .halted) ∨
      (r = .faulted ∧ result.1.runState = .faulted)) ∧
    (result.2 = .holding → result.1.waitsForInput = true ∧ k = turns.length) ∧
    (result.2 = .stillRunning → k = turns.length)

/-- One more turn before what is reached. -/
theorem ReachedBySteps.cons (h : ReachedBySteps turns (s.feed ws).stepped result) :
    ReachedBySteps (ws :: turns) s result := by
  obtain ⟨k, hk, state, returned, holds, goesOn⟩ := h
  exact ⟨k + 1, Nat.succ_le_succ hk, state, returned, fun e => (holds e).imp_right (congrArg (· + 1)),
    fun e => congrArg (· + 1) (goesOn e)⟩

/-- A turn on which `RUN` returns. -/
theorem reachedBySteps_of_returned {r : Report}
    (h : (r = .halted ∧ (s.feed ws).stepped.runState = .halted) ∨
      (r = .faulted ∧ (s.feed ws).stepped.runState = .faulted)) :
    ReachedBySteps (ws :: turns) s ((s.feed ws).stepped, .returned r) :=
  ⟨1, Nat.succ_le_succ (Nat.zero_le _), rfl, fun _ e => by cases e; exact h, nofun, nofun⟩

/-- By induction on the turns; a hold begins with a starved core and leaves it as it is. -/
theorem runLoop_reachedBySteps (turns : List (List Word)) (holding : Bool) (s : State)
    (starved : holding = true → s.waitsForInput = true) :
    ReachedBySteps turns s (State.runLoop holding turns s) := by
  induction turns generalizing holding s with
  | nil =>
    rw [State.runLoop_nil]
    cases holding with
    | false => exact ⟨0, le_rfl, rfl, nofun, nofun, fun _ => rfl⟩
    | true => exact ⟨0, le_rfl, rfl, nofun, fun _ => ⟨starved rfl, rfl⟩, nofun⟩
  | cons ws turns ih =>
    by_cases hold : holding = true ∧ (s.feed ws).inAvail = false
    · obtain ⟨rfl, empty⟩ := hold
      have fed : s.feed ws = s := by
        have : ws = [] := by simp_all [State.inAvail]
        rw [this, State.feed_nil]
      have waits := starved rfl
      rw [State.runLoop_hold turns empty]
      refine ReachedBySteps.cons ?_
      rw [fed, stepped_of_waitsForInput waits]
      exact ih true s fun _ => waits
    · rw [runLoop_step hold]
      obtain ⟨report, after⟩ | ⟨report, after⟩ | ⟨report, waits⟩ | report := report_cases (s.feed ws) <;> rw [report]
      · exact reachedBySteps_of_returned (.inl ⟨rfl, after⟩)
      · exact reachedBySteps_of_returned (.inr ⟨rfl, after⟩)
      · exact (ih true _ fun _ => by rwa [stepped_of_waitsForInput waits]).cons
      · exact (ih false _ nofun).cons

/-- Settles O52: `RUN` begins outside a hold. -/
theorem runPassesThroughSteps : Obligations.RunPassesThroughSteps := fun turns s =>
  runLoop_reachedBySteps turns false s nofun

/-! ### The hold -/

theorem inq_of_waitsForInput (h : s.waitsForInput = true) : s.inq = [] := by
  obtain ⟨-, hq, -⟩ := waitsForInput_iff.mp h
  exact hq

/-- While nothing is appended, the loop of a starved core is at its hold, whatever it was at before. -/
theorem runLoop_empty_turn (h : s.waitsForInput = true) (holding : Bool) (turns : List (List Word)) :
    State.runLoop holding ([] :: turns) s = State.runLoop true turns s := by
  have empty : (s.feed []).inAvail = false := by simp [State.inAvail, inq_of_waitsForInput h]
  cases holding with
  | true => rw [State.runLoop_hold turns empty, State.feed_nil]
  | false =>
    rw [runLoop_step (by simp), State.feed_nil, report_of_waitsForInput h]
    exact congrArg (State.runLoop true turns) (stepped_of_waitsForInput h)

theorem runLoop_empty_turns (h : s.waitsForInput = true) (n : Nat) (turns : List (List Word)) :
    State.runLoop true (List.replicate n [] ++ turns) s = State.runLoop true turns s := by
  induction n with
  | zero => rfl
  | succ n ih => rw [List.replicate_succ, List.cons_append, runLoop_empty_turn h, ih]

/-- A turn's words may as well have been appended before. -/
theorem run_cons (s : State) (ws : List Word) (turns : List (List Word)) :
    s.run (ws :: turns) = (s.feed ws).run ([] :: turns) := by
  rw [State.run, State.run, runLoop_step (by simp), runLoop_step (by simp), State.feed_nil]

/-- Settles O58: an empty turn leads into the hold and stays there, and the first word ends it. -/
theorem runContinuesWhenFed : Obligations.RunContinuesWhenFed := by
  intro s n x ws turns h
  constructor
  · have hold := runLoop_empty_turns h n []
    rw [List.append_nil] at hold
    rw [State.run, List.replicate_succ, runLoop_empty_turn h, hold]
    rfl
  · rw [← run_cons]
    cases n with
    | zero => rfl
    | succ n =>
      have word : (s.feed (x :: ws)).inAvail = true := by simp [State.inAvail]
      rw [State.run, List.replicate_succ, List.cons_append, runLoop_empty_turn h, runLoop_empty_turns h,
        State.runLoop_resume turns word]
      rfl

end Sys2Proof.Proofs.RunLoop
end

section
/-! The fetch reads the memory as the last store left it: the word an instruction stores at its own successor (rules
R64, R241), and the word `withFetchWord` places (assumption 3). -/

namespace Sys2Proof.Proofs.Fetch

open Sys2Proof.Machine Sys2Proof.Rules
open Sys2Proof.Proofs.StepChanges Sys2Proof.Proofs.HostTransactions Sys2Proof.Proofs.Arithmetic
open Sys2Proof.Proofs.RunState Sys2Proof.Proofs.Numbers

variable {s t : State} {i : Instr} {a : Nat} {v : Word} {vs : List Word}

/-- A core without a fault whose `pc` is the address of an allocated cell executes what that cell decodes to. -/
theorem step_of_cell_at_pc (clear : s.fcause = .none) (hpc : s.pc.toInt = a) (allocated : a < s.mlen)
    (h : decode (s.mem.read a) = .ok i) : step s = exec i s := by
  refine stepRunsDecodedInstruction s i ⟨clear, by omega, by omega⟩ ?_
  rwa [hpc, Int.toNat_natCast]

/-! ### A store at the successor -/

/-- An address of a cell, as an integer, is a word value (rules R8, R9). -/
theorem wrap64_toInt_of_address (h : a ≤ (s.addrMax : Nat)) : (wrap64 (a : Int)).toInt = a := by
  have := s.addrMax.isLt
  exact wrap64_toInt_of_nonneg (Int.natCast_nonneg a) (by omega)

/-- A store at the successor allocates it, so the pointer update keeps it (rule R150). -/
theorem stored_pc_of_successor (h : a ≤ (s.addrMax : Nat)) (v : Word) : (stored s a v a).pc.toInt = a := by
  change (committed (max s.mlen (a + 1)) a).toInt = a
  rw [committed, if_pos (by omega), wrap64_toInt_of_address h]

/-- Settles O47: the store puts `pc` on the cell it wrote, and the fetch reads that cell. -/
theorem storeIsSeenByNextFetch : Obligations.StoreIsSeenByNextFetch := by
  intro s t a b dest va vb d i inv run hadd ha hb hd successor hi hs
  have settable : dest ≠ .immediate := settable_iff.mp (decode_wellFormed hadd)
  obtain ⟨-, -, -, -, effect, -⟩ := rrwRule_of_row .add
  have executed := effect s a b dest va vb d settable ha hb hd
  rw [← successor] at executed
  rw [stepRunsDecodedInstruction s _ run hadd] at hs
  cases executed.symm.trans hs
  have hpc := stored_pc_of_successor (State.writeAddr_valid hd) (aluAdd va vb)
  refine ⟨hpc, step_of_cell_at_pc run.1 hpc (lt_max_of_lt_right (Nat.lt_succ_self d)) ?_⟩
  exact (congrArg decode (Memory.read_write_same d _ inv.memCanonical)).trans hi

/-! ### Words placed from an address on -/

/-- One cell of the placement: stored, unless it lies above `ADDR_MAX`. -/
def pokeCell (s : State) (a : Nat) (v : Word) : State := if a ≤ (s.addrMax : Nat) then s.memWrite a v else s

theorem pokeAll_cons (s : State) (a : Nat) (v : Word) (vs : List Word) :
    s.pokeAll a (v :: vs) = (pokeCell s a v).pokeAll (a + 1) vs := rfl

/-- Whatever a store at or above `a` keeps, the placement from `a` on keeps. -/
theorem pokeAll_keeps {P : State → Prop} (vs : List Word) (a : Nat)
    (write : ∀ s b v, a ≤ b → P s → P (s.memWrite b v)) (s : State) (h : P s) : P (s.pokeAll a vs) := by
  induction vs generalizing a s with
  | nil => exact h
  | cons v vs ih =>
    rw [pokeAll_cons]
    refine ih (a + 1) (fun s b v hb => write s b v (by omega)) _ ?_
    unfold pokeCell
    split
    · exact write s a v le_rfl h
    · exact h

/-- `s` fetches the word `v`, at address `a`. -/
def FetchesAt (a : Nat) (v : Word) (s : State) : Prop :=
  s.fcause = .none ∧ s.pc.toInt = a ∧ a < s.mlen ∧ s.mem.read a = v

/-- A store above the fetched cell does not change the fetch. -/
theorem FetchesAt.memWrite (h : FetchesAt a v s) {b : Nat} (hb : a < b) (u : Word) :
    FetchesAt a v (s.memWrite b u) := by
  obtain ⟨clear, hpc, allocated, word⟩ := h
  refine ⟨clear, hpc, ?_, ?_⟩
  · rw [memWrite_mlen_eq_max]
    exact lt_max_of_lt_left allocated
  · rw [State.memWrite_mem, Memory.read_write_other _ _ (by omega), word]

/-- The first cell of a placement at `pc` is the one fetched: the other cells lie above it. -/
theorem fetchesAt_pokeAll (clear : s.fcause = .none) (hpc : s.pc.toInt = a) (wf : s.mem.wf)
    (valid : a ≤ (s.addrMax : Nat)) (v : Word) (vs : List Word) : FetchesAt a v (s.pokeAll a (v :: vs)) := by
  rw [pokeAll_cons, pokeCell, if_pos valid]
  refine pokeAll_keeps vs (a + 1) (fun _ b u hb h => h.memWrite hb u) _ ⟨clear, hpc, ?_, Memory.read_write_same a v wf⟩
  rw [memWrite_mlen_eq_max]
  exact lt_max_of_lt_right (Nat.lt_succ_self a)

/-- The placement puts the first cell of `w` where the next step fetches: at `pc` of a Running core, else at the entry
address. -/
theorem exists_fetchesAt_placeFetch (inv : MachineInv s) (w : Nat) :
    ∃ a, FetchesAt a (BitVec.ofNat 64 w) (placeFetch s w) := by
  unfold placeFetch
  split
  case isTrue run =>
    obtain ⟨clear, lo, hi⟩ := runState_eq_running_iff.mp run
    have bound := inv.extentBound
    exact ⟨_, fetchesAt_pokeAll clear (Int.toNat_of_nonneg lo).symm inv.memCanonical (by omega) _ _⟩
  case isFalse =>
    refine ⟨0, fetchesAt_pokeAll rfl entry_toInt ?_ (Nat.zero_le _) _ _⟩
    exact inv.memCanonical

theorem decode_of_decodeTableWord {n w : Nat} (h : decodeTableWord n w = some i) :
    decode (BitVec.ofNat 64 w) = .ok i := by
  unfold decodeTableWord at h
  split at h
  case h_1 hi =>
    cases h
    exact hi
  case h_2 => cases h

/-- Settles O8: the first cell of a table word decides what it decodes to, and that cell is fetched. -/
theorem placedInstructionRunsNext : Obligations.PlacedInstructionRunsNext := by
  intro s nbits w i inv h
  obtain ⟨a, clear, hpc, allocated, word⟩ := exists_fetchesAt_placeFetch inv w
  exact step_of_cell_at_pc clear hpc allocated (word ▸ decode_of_decodeTableWord h)

end Sys2Proof.Proofs.Fetch
end
